-- ==== Sys2Proof/Word.lean ====
section
/-!
DEFINITION. The Word: the machine's fixed-width unsigned integer unit (spec/00_scope.md R10).

The width `w` belongs to the instance (R6), so it is an argument here and never a constant. A Word is *computed on* as a
bit vector of that width; it is *held* in the state as the unsigned integer it stands for, a `Nat` below `2 ^ w`
(log entry 1), so that no type of the state depends on a value of the state.
-/

namespace Sys2Proof

/-- A W-bit Word as the ALU sees it: bits numbered from 0, the least significant (R9, R10). -/
abbrev Word (w : Nat) := BitVec w

/-- `MASK = 2^W - 1`, the largest Word (R10). -/
def wordMask (w : Nat) : Nat := 2 ^ w - 1

/-- `v` is the unsigned value of some W-bit Word (R10). -/
abbrev FitsWord (w v : Nat) : Prop := v < 2 ^ w

end Sys2Proof
end

