-- ==== Sys2Proof/Machine/Flags.lean ====
section
/-!
DEFINITION. The core's one flag: the transient overflow flag, an unsigned carry or borrow and never signed overflow
(spec/10_state.md R27, 43_arithmetic.md R140 to R142). AddOvf and SubOvf expose it; nothing stores or reads it.
-/

namespace Sys2Proof.Machine

/-- The carry of an addition: the true sum exceeds the largest Word (R140). -/
def carryOut (w : Nat) (a b : Word w) : Bool := decide (2 ^ w ≤ a.toNat + b.toNat)

/-- The borrow of a subtraction: `a < b`, unsigned (R141). -/
def borrowOut (w : Nat) (a b : Word w) : Bool := decide (a.toNat < b.toNat)

end Sys2Proof.Machine
end

