-- ==== Sys2Proof/Machine/Alu.lean ====
section
/-!
DEFINITION. The ALU: pure functions of W-bit Words (spec/42_logic.md R120 to R124, 43_arithmetic.md R140 to R143).

Each logic function but NAND is the composition of NAND applications that R121 gives it, so that the sole primitive gate
is NAND, as the hardware's definition asks (R123); R122's truth table is then something to prove.
-/

namespace Sys2Proof.Machine

/-- The primitive gate: 0 where both bits are 1, else 1 (R120). -/
def aluNand {w : Nat} (a b : Word w) : Word w := ~~~(a &&& b)

/-- `NAND(a, a)` (R121). -/
def aluNot {w : Nat} (a : Word w) : Word w := aluNand a a

/-- `NOT(NAND(a, b))` (R121). -/
def aluAnd {w : Nat} (a b : Word w) : Word w := aluNot (aluNand a b)

/-- `NOT(NAND(NOT(a), NOT(b)))`: the true NOR (R121, 90_conflicts.md C1). -/
def aluNor {w : Nat} (a b : Word w) : Word w := aluNot (aluNand (aluNot a) (aluNot b))

/-- `NOT(NOR(a, b))` (R121). -/
def aluOr {w : Nat} (a b : Word w) : Word w := aluNot (aluNor a b)

/-- `NAND(NAND(NOT(a), NOT(b)), NAND(a, b))` (R121). -/
def aluXnor {w : Nat} (a b : Word w) : Word w := aluNand (aluNand (aluNot a) (aluNot b)) (aluNand a b)

/-- `NOT(XNOR(a, b))` (R121). -/
def aluXor {w : Nat} (a b : Word w) : Word w := aluNot (aluXnor a b)

/-- `ADD(a, b)`: the sum, exact and then narrowed to W bits, and the carry (R140). -/
def aluAdd {w : Nat} (a b : Word w) : Word w × Bool := (BitVec.ofNat w (a.toNat + b.toNat), carryOut w a b)

/-- `SUB(a, b)`: the difference, exact and then narrowed to W bits, and the borrow (R141). -/
def aluSub {w : Nat} (a b : Word w) : Word w × Bool :=
  (BitVec.ofInt w ((a.toNat : Int) - (b.toNat : Int)), borrowOut w a b)

end Sys2Proof.Machine
end

