-- ==== Sys2Proof/Config.lean ====
section
/-!
DEFINITION. The implementation parameters (spec/00_scope.md R6): constant for one machine instance, open to the
implementer. Statements quantify over them; only `Config.reference` chooses values (log entries 2 and 3).
-/

namespace Sys2Proof

/-- `MEM_ADDR_MODE`: where LoadMem and StoreMem take their address from (R6, R102, R104). -/
inductive MemAddrMode where
  /-- The instruction's one register field holds the address: this spec's setting (92_eei_decisions.md D3). -/
  | registerIndirect
  /-- The address is a trailing literal, as LoadConst's operand is. -/
  | trailingLiteral
  deriving DecidableEq, Repr

/-- The parameters of one instance (R6). -/
structure Config where
  /-- `W`, the width of a Word in bits. -/
  wordBits : Nat
  /-- `MEM_WORDS`, the capacity of data memory in Words. -/
  memWords : Nat
  /-- `PC_BITS`, the width of the program counter. -/
  pcBits : Nat
  /-- `MEM_ADDR_MODE`. -/
  memAddrMode : MemAddrMode
  deriving DecidableEq, Repr

/-- The legal values of R6 and R7: `W >= 8` and `PC_BITS >= W`; every `MEM_WORDS` is legal. -/
abbrev Config.Legal (c : Config) : Prop := 8 ≤ c.wordBits ∧ c.wordBits ≤ c.pcBits

/-- The reference instance: `W = 8` and `register_indirect` are the spec's own (R6); DESIGN CHOICE: 256 Words of
memory (every address in range) and a 32-bit `pc` (log entry 3). -/
def Config.reference : Config :=
  { wordBits := 8, memWords := 256, pcBits := 32, memAddrMode := .registerIndirect }

end Sys2Proof
end

