-- ==== Sys2Proof/Syntax.lean ====
section
/-!
DEFINITION. The fifteen instructions (spec/30_encoding.md R62, R74), one constructor per row of the opcode table.
-/

namespace Sys2Proof

/-- The four registers `R0` to `R3` (R14, R21). -/
inductive Reg where
  | r0
  | r1
  | r2
  | r3
  deriving DecidableEq, Repr

/-- Where a LoadMem or StoreMem finds its address (R62, R102, R104). -/
inductive MemAddr where
  /-- In the register the instruction names (`register_indirect`). -/
  | viaRegister
  /-- In the trailing literal, a whole Word (`trailing_literal`). -/
  | literal (a : Nat)
  deriving DecidableEq, Repr

/-- An instruction with its operands; a trailing literal is an operand (R65). -/
inductive Instr where
  /-- `x[rt] <- lit` (R100). -/
  | loadConst (rt : Reg) (lit : Nat)
  /-- `x[rt] <- mem[addr]` (R102). -/
  | loadMem (rt : Reg) (addr : MemAddr)
  /-- `mem[addr] <- x[rf]` (R104). -/
  | storeMem (rf : Reg) (addr : MemAddr)
  /-- `x[rr] <- NOT(x[rr])` (R128). -/
  | not (rr : Reg)
  /-- `x[rt] <- x[rf]` (R106). -/
  | move (rt rf : Reg)
  /-- `x[rt] <- NAND(x[rt], x[rf])` (R129). -/
  | nand (rt rf : Reg)
  /-- `x[rt] <- AND(x[rt], x[rf])` (R130). -/
  | and (rt rf : Reg)
  /-- `x[rt] <- NOR(x[rt], x[rf])` (R131). -/
  | nor (rt rf : Reg)
  /-- `x[rt] <- OR(x[rt], x[rf])` (R132). -/
  | or (rt rf : Reg)
  /-- `x[rt] <- XNOR(x[rt], x[rf])` (R133). -/
  | xnor (rt rf : Reg)
  /-- `x[rt] <- XOR(x[rt], x[rf])` (R134). -/
  | xor (rt rf : Reg)
  /-- `x[rt] <- x[rt] + x[rf]`, no flag (R144). -/
  | add (rt rf : Reg)
  /-- As Add, the carry exposed (R145). -/
  | addOvf (rt rf : Reg)
  /-- `x[rt] <- x[rt] - x[rf]`, no flag (R146). -/
  | sub (rt rf : Reg)
  /-- As Sub, the borrow exposed (R147). -/
  | subOvf (rt rf : Reg)
  deriving DecidableEq, Repr

/-- The names of the fifteen operations, without operands: the `op` of a decoder descriptor (R71, R88). -/
inductive Opcode where
  | loadConst
  | loadMem
  | storeMem
  | not
  | move
  | nand
  | and
  | nor
  | or
  | xnor
  | xor
  | add
  | addOvf
  | sub
  | subOvf
  deriving DecidableEq, Repr

/-- The operation an instruction performs (R88). -/
def Instr.opcode : Instr → Opcode
  | .loadConst _ _ => .loadConst
  | .loadMem _ _ => .loadMem
  | .storeMem _ _ => .storeMem
  | .not _ => .not
  | .move _ _ => .move
  | .nand _ _ => .nand
  | .and _ _ => .and
  | .nor _ _ => .nor
  | .or _ _ => .or
  | .xnor _ _ => .xnor
  | .xor _ _ => .xor
  | .add _ _ => .add
  | .addOvf _ _ => .addOvf
  | .sub _ _ => .sub
  | .subOvf _ _ => .subOvf

end Sys2Proof
end

