-- ==== Sys2Proof/WellFormed.lean ====
section
/-!
DEFINITION. Which instructions exist on an instance: a literal is one of its Words (spec/30_encoding.md R65), and the
address of a LoadMem or StoreMem has the form of its `MEM_ADDR_MODE` (R62, R102, R104). Register fields cannot be out of
range (R66).
-/

namespace Sys2Proof

/-- The address form is that of the instance's mode, and a literal address is a Word (R62, R65). -/
def MemAddr.wellFormed (c : Config) : MemAddr → Bool
  | .viaRegister => decide (c.memAddrMode = .registerIndirect)
  | .literal a => decide (c.memAddrMode = .trailingLiteral) && decide (FitsWord c.wordBits a)

/-- The instruction exists on the instance (R65, R66). -/
def Instr.wellFormed (c : Config) : Instr → Bool
  | .loadConst _ lit => decide (FitsWord c.wordBits lit)
  | .loadMem _ addr => addr.wellFormed c
  | .storeMem _ addr => addr.wellFormed c
  | .not _ => true
  | .move _ _ => true
  | .nand _ _ => true
  | .and _ _ => true
  | .nor _ _ => true
  | .or _ _ => true
  | .xnor _ _ => true
  | .xor _ _ => true
  | .add _ _ => true
  | .addOvf _ _ => true
  | .sub _ _ => true
  | .subOvf _ _ => true

end Sys2Proof
end

