-- ==== Sys2Proof/Decode.lean ====
section
/-!
DEFINITION. The decoder, the encoder and the opcode map (spec/30_encoding.md R60 to R74).

The decoder reads a list of stream Words, the instruction's first, and answers the instruction and the Words after it, or
the reason it has none. It is total on any list of numbers.
-/

namespace Sys2Proof

/-- Why there is no instruction at the head of a list of stream Words. -/
inductive DecodeError where
  /-- There is no Word: fetch found the end of the stream (40_control_unit.md R82). -/
  | endOfStream
  /-- The Word is no instruction (R67, R68). -/
  | invalidOpcode
  /-- The Word's instruction consumes a literal and no Word follows (40_control_unit.md R84). -/
  | truncatedLiteral
  deriving DecidableEq, Repr

/-- The index of a register, which is also its field value (R14, R66). -/
def Reg.index : Reg → Nat
  | .r0 => 0
  | .r1 => 1
  | .r2 => 2
  | .r3 => 3

/-- The register a 2-bit field names (R62, R66). -/
def Reg.ofField (f : BitVec 2) : Reg :=
  match f.toNat with
  | 0 => .r0
  | 1 => .r1
  | 2 => .r2
  | _ => .r3

/-- `class = i[7:4]` (R61). -/
def classField (i : BitVec 8) : BitVec 4 := i.extractLsb' 4 4

/-- `i[3:2]`: the sub-operation of format U (R63), the RT field of format R (R64). -/
def upperField (i : BitVec 8) : BitVec 2 := i.extractLsb' 2 2

/-- `i[1:0]`: the register of format U (R63), the RF field of format R (R64). -/
def lowerField (i : BitVec 8) : BitVec 2 := i.extractLsb' 0 2

/-- The address operand each mode gives LoadMem and StoreMem, a literal not yet filled in (R62). -/
def MemAddrMode.addrForm : MemAddrMode → MemAddr
  | .registerIndirect => .viaRegister
  | .trailingLiteral => .literal 0

/-- Class `0000`, format U: the sub-operation selects among four instructions (R63). -/
def decodeFormatU (m : MemAddrMode) (i : BitVec 8) : Instr :=
  match (upperField i).toNat with
  | 0 => .loadConst (Reg.ofField (lowerField i)) 0
  | 1 => .loadMem (Reg.ofField (lowerField i)) m.addrForm
  | 2 => .storeMem (Reg.ofField (lowerField i)) m.addrForm
  | _ => .not (Reg.ofField (lowerField i))

/-- The 8-bit decoder of R71: the instruction with any literal operand still 0, or nothing for the invalid classes
`1100` to `1111` (R67). -/
def decodeByte (m : MemAddrMode) (i : BitVec 8) : Option Instr :=
  match (classField i).toNat with
  | 0 => some (decodeFormatU m i)
  | 1 => some (.move (Reg.ofField (upperField i)) (Reg.ofField (lowerField i)))
  | 2 => some (.nand (Reg.ofField (upperField i)) (Reg.ofField (lowerField i)))
  | 3 => some (.and (Reg.ofField (upperField i)) (Reg.ofField (lowerField i)))
  | 4 => some (.nor (Reg.ofField (upperField i)) (Reg.ofField (lowerField i)))
  | 5 => some (.or (Reg.ofField (upperField i)) (Reg.ofField (lowerField i)))
  | 6 => some (.xnor (Reg.ofField (upperField i)) (Reg.ofField (lowerField i)))
  | 7 => some (.xor (Reg.ofField (upperField i)) (Reg.ofField (lowerField i)))
  | 8 => some (.add (Reg.ofField (upperField i)) (Reg.ofField (lowerField i)))
  | 9 => some (.addOvf (Reg.ofField (upperField i)) (Reg.ofField (lowerField i)))
  | 10 => some (.sub (Reg.ofField (upperField i)) (Reg.ofField (lowerField i)))
  | 11 => some (.subOvf (Reg.ofField (upperField i)) (Reg.ofField (lowerField i)))
  | _ => none

/-- A stream Word used as an instruction: of value `2^8` or more it is invalid; its upper bits are never dropped
(R68). -/
def decodeWord (m : MemAddrMode) (w : Nat) : Option Instr :=
  if w < 2 ^ 8 then decodeByte m (BitVec.ofNat 8 w) else none

/-- Whether a trailing literal follows the instruction's Word: `consumesLiteral` of R71. -/
def Instr.consumesLiteral : Instr → Bool
  | .loadConst _ _ => true
  | .loadMem _ .viaRegister => false
  | .loadMem _ (.literal _) => true
  | .storeMem _ .viaRegister => false
  | .storeMem _ (.literal _) => true
  | .not _ => false
  | .move _ _ => false
  | .nand _ _ => false
  | .and _ _ => false
  | .nor _ _ => false
  | .or _ _ => false
  | .xnor _ _ => false
  | .xor _ _ => false
  | .add _ _ => false
  | .addOvf _ _ => false
  | .sub _ _ => false
  | .subOvf _ _ => false

/-- The decoder's descriptor (R71): the operation, the RT and RF fields (nothing for a field the operation does not use),
and whether a trailing literal is consumed. -/
structure Descriptor where
  op : Opcode
  rt : Option Reg
  rf : Option Reg
  consumesLiteral : Bool
  deriving DecidableEq, Repr

/-- The RT field of a descriptor; Not's RR stands in both fields (R71). -/
def Instr.rtField : Instr → Option Reg
  | .loadConst rt _ => some rt
  | .loadMem rt _ => some rt
  | .storeMem _ _ => none
  | .not rr => some rr
  | .move rt _ => some rt
  | .nand rt _ => some rt
  | .and rt _ => some rt
  | .nor rt _ => some rt
  | .or rt _ => some rt
  | .xnor rt _ => some rt
  | .xor rt _ => some rt
  | .add rt _ => some rt
  | .addOvf rt _ => some rt
  | .sub rt _ => some rt
  | .subOvf rt _ => some rt

/-- The RF field of a descriptor; LoadMem's one register stands in both fields (R71). -/
def Instr.rfField : Instr → Option Reg
  | .loadConst _ _ => none
  | .loadMem rt _ => some rt
  | .storeMem rf _ => some rf
  | .not rr => some rr
  | .move _ rf => some rf
  | .nand _ rf => some rf
  | .and _ rf => some rf
  | .nor _ rf => some rf
  | .or _ rf => some rf
  | .xnor _ rf => some rf
  | .xor _ rf => some rf
  | .add _ rf => some rf
  | .addOvf _ rf => some rf
  | .sub _ rf => some rf
  | .subOvf _ rf => some rf

/-- The decoder as R71 gives it, from a stream Word to a descriptor or to `Invalid`. -/
def describe (m : MemAddrMode) (w : Nat) : Option Descriptor :=
  (decodeWord m w).map fun i =>
    { op := i.opcode, rt := i.rtField, rf := i.rfField, consumesLiteral := i.consumesLiteral }

/-- The length of an instruction in stream Words (R70). -/
def Instr.length (i : Instr) : Nat := if i.consumesLiteral then 2 else 1

/-- The length of a LoadMem or StoreMem by its address operand, in stream Words (R70). -/
def MemAddr.instrWords : MemAddr → Nat
  | .viaRegister => 1
  | .literal _ => 2

/-- A literal address operand takes the trailing literal; a register-indirect one has no place for it (R65). -/
def MemAddr.withLiteral (lit : Nat) : MemAddr → MemAddr
  | .viaRegister => .viaRegister
  | .literal _ => .literal lit

/-- The instruction with its literal operand set to the trailing literal, taken whole (R65). -/
def Instr.withLiteral (lit : Nat) : Instr → Instr
  | .loadConst rt _ => .loadConst rt lit
  | .loadMem rt addr => .loadMem rt (addr.withLiteral lit)
  | .storeMem rf addr => .storeMem rf (addr.withLiteral lit)
  | .not rr => .not rr
  | .move rt rf => .move rt rf
  | .nand rt rf => .nand rt rf
  | .and rt rf => .and rt rf
  | .nor rt rf => .nor rt rf
  | .or rt rf => .or rt rf
  | .xnor rt rf => .xnor rt rf
  | .xor rt rf => .xor rt rf
  | .add rt rf => .add rt rf
  | .addOvf rt rf => .addOvf rt rf
  | .sub rt rf => .sub rt rf
  | .subOvf rt rf => .subOvf rt rf

/-- The instruction, given the Words that follow its own (R70, R71; R84 for the missing literal). -/
def takeLiteral (i : Instr) (following : List Nat) : Except DecodeError (Instr × List Nat) :=
  match i.consumesLiteral, following with
  | false, _ => .ok (i, following)
  | true, [] => .error .truncatedLiteral
  | true, lit :: rest => .ok (i.withLiteral lit, rest)

/-- The decoder over a list of stream Words: the instruction and the Words after it, the checks in the order of
60_exceptions.md R166. -/
def decode (m : MemAddrMode) : List Nat → Except DecodeError (Instr × List Nat)
  | [] => .error .endOfStream
  | w :: rest =>
    match decodeWord m w with
    | none => .error .invalidOpcode
    | some i => takeLiteral i rest

/-- The instruction's own Word: `base + r` in format U, `base + 4*RT + RF` in format R (R74). -/
def Instr.firstWord : Instr → Nat
  | .loadConst rt _ => 0x00 + rt.index
  | .loadMem rt _ => 0x04 + rt.index
  | .storeMem rf _ => 0x08 + rf.index
  | .not rr => 0x0C + rr.index
  | .move rt rf => 0x10 + 4 * rt.index + rf.index
  | .nand rt rf => 0x20 + 4 * rt.index + rf.index
  | .and rt rf => 0x30 + 4 * rt.index + rf.index
  | .nor rt rf => 0x40 + 4 * rt.index + rf.index
  | .or rt rf => 0x50 + 4 * rt.index + rf.index
  | .xnor rt rf => 0x60 + 4 * rt.index + rf.index
  | .xor rt rf => 0x70 + 4 * rt.index + rf.index
  | .add rt rf => 0x80 + 4 * rt.index + rf.index
  | .addOvf rt rf => 0x90 + 4 * rt.index + rf.index
  | .sub rt rf => 0xA0 + 4 * rt.index + rf.index
  | .subOvf rt rf => 0xB0 + 4 * rt.index + rf.index

/-- The literal Word of an address operand, if it is one (R65). -/
def MemAddr.literalWords : MemAddr → List Nat
  | .viaRegister => []
  | .literal a => [a]

/-- The literal Words after the instruction's own: one or none (R65, R70). -/
def Instr.literalWords : Instr → List Nat
  | .loadConst _ lit => [lit]
  | .loadMem _ addr => addr.literalWords
  | .storeMem _ addr => addr.literalWords
  | .not _ => []
  | .move _ _ => []
  | .nand _ _ => []
  | .and _ _ => []
  | .nor _ _ => []
  | .or _ _ => []
  | .xnor _ _ => []
  | .xor _ _ => []
  | .add _ _ => []
  | .addOvf _ _ => []
  | .sub _ _ => []
  | .subOvf _ _ => []

/-- The stream Words of an instruction, the first at the lowest index (R70, R74). -/
def encode (i : Instr) : List Nat := i.firstWord :: i.literalWords

/-- One row of the opcode map: an 8-bit value `v` belongs to it when `v &&& mask = bits` (R74, opcode_table.json). -/
structure OpcodeRow where
  op : Opcode
  bits : BitVec 8
  mask : BitVec 8
  deriving DecidableEq, Repr

/-- The row's pattern holds of an instruction value (R74). -/
def OpcodeRow.covers (r : OpcodeRow) (v : BitVec 8) : Bool := v &&& r.mask == r.bits

/-- The complete opcode map, in the order of the opcode table (R74); written beside the decoder so that each can be held
against the other. -/
def opcodeMap : List OpcodeRow :=
  [⟨.loadConst, 0x00, 0xFC⟩, ⟨.loadMem, 0x04, 0xFC⟩, ⟨.storeMem, 0x08, 0xFC⟩, ⟨.not, 0x0C, 0xFC⟩,
   ⟨.move, 0x10, 0xF0⟩, ⟨.nand, 0x20, 0xF0⟩, ⟨.and, 0x30, 0xF0⟩, ⟨.nor, 0x40, 0xF0⟩,
   ⟨.or, 0x50, 0xF0⟩, ⟨.xnor, 0x60, 0xF0⟩, ⟨.xor, 0x70, 0xF0⟩,
   ⟨.add, 0x80, 0xF0⟩, ⟨.addOvf, 0x90, 0xF0⟩, ⟨.sub, 0xA0, 0xF0⟩, ⟨.subOvf, 0xB0, 0xF0⟩]

/-- The stream Words that a table word stands for, on an instance of `wordBits` bits: the first Word from the low
bits, then one more (a literal Word where the row gives it no bits, so zero). -/
def tableWords (wordBits nbits w : Nat) : List Nat :=
  [w % 2 ^ nbits % 2 ^ wordBits, w % 2 ^ nbits / 2 ^ wordBits % 2 ^ wordBits]

/-- What the decoder of the reference instance reads from a table word. -/
def decodeTableWord (nbits w : Nat) : Option Instr :=
  match decode Config.reference.memAddrMode (tableWords Config.reference.wordBits nbits w) with
  | .ok (i, _) => some i
  | .error _ => none

end Sys2Proof
end

