-- ==== Sys2Proof/Machine/State.lean ====
section
/-!
DEFINITION. The state as plain data, and the state after reset (spec/10_state.md R20 to R33).

R20 gives the machine `(pc, x[0..3], mem, run)`. The host's step is a function of the state alone, so three more fields
stand beside them: the instance's parameters and the instruction stream, which the spec calls inputs of a run and which no
step changes, and the overflow output of the step just made, which the spec calls an output (log entries 2, 4 and 5).
-/

namespace Sys2Proof.Machine

/-- The kinds a `Faulted` run state carries (60_exceptions.md R160). The fourth error kind, `StreamExhausted`, is the
normal end and is carried by no state (90_conflicts.md C6). -/
inductive FaultKind where
  /-- The fetched Word is no instruction (R161). -/
  | invalidOpcode
  /-- LoadMem or StoreMem addressed past the end of memory (R162). -/
  | memoryOutOfRange
  /-- A literal-consuming instruction is the last Word of the stream (R163). -/
  | truncatedLiteral
  deriving DecidableEq, Repr

/-- The run state of the control unit (R25). -/
inductive RunState where
  | running
  /-- Terminal: the end of the stream was reached. -/
  | halted
  /-- Terminal: the kind, and the program counter of the instruction that faulted. -/
  | faulted (kind : FaultKind) (p : Nat)
  deriving DecidableEq, Repr

/-- The four registers, each the unsigned value of a Word (R21). -/
structure RegFile where
  r0 : Nat
  r1 : Nat
  r2 : Nat
  r3 : Nat
  deriving DecidableEq, Repr

/-- What an address the memory list does not name reads as: how a cell holding 0 is written (log entry 8). -/
def unlistedWord : Nat := 0

/-- Data memory: (address, Word) pairs, addresses strictly rising, no pair holding `unlistedWord` (R40; log entry 8). -/
abbrev Memory := List (Nat × Nat)

/-- The canonical form of a memory (log entry 8). -/
abbrev Memory.wf (m : Memory) : Prop :=
  m.Pairwise (fun x y => x.1 < y.1) ∧ ∀ c ∈ m, c.2 ≠ unlistedWord

/-- The machine. -/
structure State where
  /-- The instance's parameters (00_scope.md R6); constant. -/
  cfg : Config
  /-- `x[0]` to `x[3]` (R21). -/
  regs : RegFile
  /-- The program counter, an index into the stream (R24). -/
  pc : Nat
  /-- The run state (R25). -/
  run : RunState
  /-- Data memory (R30). -/
  mem : Memory
  /-- The instruction stream, read-only (R23). -/
  stream : List Nat
  /-- The overflow output of the step just made (R27); nothing reads it. -/
  ovf : Option Bool
  deriving DecidableEq, Repr

/-- The faults of the model itself. The spec's own faults are run states, reached by a next state (R164). -/
inductive Fault where
  /-- Raised by `step` alone, on an instance or a stream outside the legal values of 00_scope.md R6 (`W < 8`,
  `PC_BITS < W`, or a stream that a `PC_BITS`-bit counter cannot index): no machine the spec describes. Safe
  (log entry 6). -/
  | illegalInstance
  deriving DecidableEq, Repr

/-- Reasons for giving an instruction no meaning. -/
inductive Refusal where
  /-- Raised by an arm of `exec` whose instruction has no meaning yet; no arm is one. Safe. -/
  | notModelled (mnemonic : String)
  deriving DecidableEq, Repr

/-- The state after reset (R32, 70_reset_and_hazards.md R180): registers 0, `pc` 0, `Running`. Nothing is loaded: no
stream and no memory image (log entries 3, 4, 5 and 8). -/
def State.reset : State :=
  { cfg := Config.reference
    regs := { r0 := 0, r1 := 0, r2 := 0, r3 := 0 }
    pc := 0
    run := .running
    mem := []
    stream := []
    ovf := none }

end Sys2Proof.Machine
end

