-- ==== Sys2Proof/Machine/Ops.lean ====
section
/-!
DEFINITION. The named operations over registers, memory and the control state, and the two ways a step can end early:
taking a fault and halting (spec/00_scope.md R11, 10_state.md R22, 20_memory.md R44 to R46, 60_exceptions.md R164, R165).
-/

namespace Sys2Proof.Machine

/-- `read(index)` of the register file (R22). -/
def RegFile.read (f : RegFile) : Reg → Nat
  | .r0 => f.r0
  | .r1 => f.r1
  | .r2 => f.r2
  | .r3 => f.r3

/-- `write(index, v)` of the register file: the addressed register and no other (R22). -/
def RegFile.write (f : RegFile) (r : Reg) (v : Nat) : RegFile :=
  match r with
  | .r0 => { f with r0 := v }
  | .r1 => { f with r1 := v }
  | .r2 => { f with r2 := v }
  | .r3 => { f with r3 := v }

/-- The Word at an address: an unlisted one reads `unlistedWord` (R45). -/
def Memory.read : Memory → Nat → Nat
  | [], _ => unlistedWord
  | (b, x) :: rest, a => if a = b then x else Memory.read rest a

/-- Puts a pair in front, unless it is one the canonical form leaves out. -/
def Memory.put (a v : Nat) (rest : Memory) : Memory :=
  if v = unlistedWord then rest else (a, v) :: rest

/-- Sets the cell at `a` to `v` and no other, keeping the canonical form (R46). -/
def Memory.write : Memory → Nat → Nat → Memory
  | [], a, v => Memory.put a v []
  | (b, x) :: rest, a, v =>
    if a < b then Memory.put a v ((b, x) :: rest)
    else if a = b then Memory.put a v rest
    else (b, x) :: Memory.write rest a v

/-- `x[r]` (R11). -/
def State.reg (s : State) (r : Reg) : Nat := s.regs.read r

/-- `x[r] <- v` (R11). -/
def State.setReg (s : State) (r : Reg) (v : Nat) : State := { s with regs := s.regs.write r v }

/-- `move(dst, src)` of the register file: `write(dst, read(src))` (R22). -/
def State.moveReg (s : State) (dst src : Reg) : State := s.setReg dst (s.reg src)

/-- The address check: an access is in range iff its address is below `MEM_WORDS` (R44). -/
abbrev State.InRange (s : State) (a : Nat) : Prop := a < s.cfg.memWords

/-- `MemRead(a, 1)`; callers check the range first (R11, R45). -/
def State.memRead (s : State) (a : Nat) : Nat := s.mem.read a

/-- `MemWrite(a, 1, v)`; callers check the range first (R11, R46). -/
def State.memWrite (s : State) (a v : Nat) : State := { s with mem := s.mem.write a v }

/-- The end of an instruction: `pc` moves past its Words and the step's overflow output is given
(40_control_unit.md R85, 10_state.md R27). -/
def State.retire (s : State) (words : Nat) (ovf : Option Bool) : State :=
  { s with pc := s.pc + words, ovf := ovf }

/-- `raise Fault(kind)`: taking a fault changes the run state alone, which records the kind and the `pc` of the
instruction; the overflow output is `none` (R11, R164). -/
def State.raise (s : State) (kind : FaultKind) : State :=
  { s with run := .faulted kind s.pc, ovf := none }

/-- `halt`: changes the run state alone; the overflow output is `none` (R11, R165). -/
def State.halt (s : State) : State := { s with run := .halted, ovf := none }

/-- A step in a terminal state: nothing changes and the overflow output is `none` (40_control_unit.md R81). -/
def State.idle (s : State) : State := { s with ovf := none }

/-- What a step finds before it executes: checks 1 to 4 of 60_exceptions.md R166. -/
inductive Fetched where
  /-- The core is not running (R81). -/
  | idle
  /-- `pc` is past the end of the stream (R82). -/
  | endOfStream
  /-- There is no instruction to run: the decoder or the literal fetch faults (R83, R84). -/
  | reject (kind : FaultKind)
  /-- The instruction to execute, its literal in it (R85). -/
  | run (i : Instr)
  deriving DecidableEq, Repr

/-- Fetch at `pc`, decode, and fetch the literal (40_control_unit.md R82 to R84). -/
def State.fetch (s : State) : Fetched :=
  match s.run with
  | .running =>
    match decode s.cfg.memAddrMode (s.stream.drop s.pc) with
    | .ok (i, _) => .run i
    | .error .endOfStream => .endOfStream
    | .error .invalidOpcode => .reject .invalidOpcode
    | .error .truncatedLiteral => .reject .truncatedLiteral
  | .halted => .idle
  | .faulted _ _ => .idle

/-- The instance and the stream have legal parameters (00_scope.md R6): `W >= 8`, `PC_BITS >= W`,
`2^PC_BITS > len(stream)`. -/
abbrev State.LegalInstance (s : State) : Prop := s.cfg.Legal ∧ s.stream.length < 2 ^ s.cfg.pcBits

/-- The first `n` elements of a list, zeros where it is shorter: the part of a stream that stands before index `n`. -/
def padTo : Nat → List Nat → List Nat
  | 0, _ => []
  | n + 1, [] => 0 :: padTo n []
  | n + 1, x :: xs => x :: padTo n xs

/-- The state with the stream holding `words` from index `pc` on and the core running, so that the next step fetches
them; the stream before `pc` and after the words stays as it was. -/
def State.placeAtPc (s : State) (words : List Nat) : State :=
  { s with
    run := .running
    stream := padTo s.pc s.stream ++ words ++ s.stream.drop (s.pc + words.length) }

end Sys2Proof.Machine
end

