-- ==== Sys2Proof/Machine/Operands.lean ====
section
/-!
DEFINITION. The operand forms (spec/30_encoding.md R62, R65, R66): a register as an ALU operand, and the two forms of
memory address.
-/

namespace Sys2Proof.Machine

/-- `x[r]` as the W-bit Word the ALU takes (42_logic.md, 43_arithmetic.md). -/
def State.aluOperand (s : State) (r : Reg) : Word s.cfg.wordBits := BitVec.ofNat s.cfg.wordBits (s.reg r)

/-- The address a LoadMem or StoreMem accesses, `r` being its register field: the register's value, or the trailing
literal (R102, R104). A Word read as an unsigned integer (20_memory.md R42). -/
def State.effectiveAddress (s : State) (r : Reg) : MemAddr → Nat
  | .viaRegister => s.reg r
  | .literal a => a

end Sys2Proof.Machine
end

