-- ==== Sys2Proof/Machine/Arithmetic.lean ====
section
/-!
DEFINITION. The arithmetic instructions (spec/43_arithmetic.md R144 to R147): unsigned, wrapping modulo `2^W`; the
variants "with overflow" write the same Word and give the flag as the step's overflow output.
-/

namespace Sys2Proof.Machine

/-- Add RT, RF: no flag exposed, even where there is a carry (R144). -/
def execAdd (rt rf : Reg) (s : State) : Host.Outcome State Fault Refusal :=
  .next ((s.setReg rt (aluAdd (s.aluOperand rt) (s.aluOperand rf)).1.toNat).retire 1 none)

/-- AddOvf RT, RF: the carry exposed (R145). -/
def execAddOvf (rt rf : Reg) (s : State) : Host.Outcome State Fault Refusal :=
  .next ((s.setReg rt (aluAdd (s.aluOperand rt) (s.aluOperand rf)).1.toNat).retire 1
    (some (aluAdd (s.aluOperand rt) (s.aluOperand rf)).2))

/-- Sub RT, RF: RT minus RF, no flag exposed, even where there is a borrow (R146). -/
def execSub (rt rf : Reg) (s : State) : Host.Outcome State Fault Refusal :=
  .next ((s.setReg rt (aluSub (s.aluOperand rt) (s.aluOperand rf)).1.toNat).retire 1 none)

/-- SubOvf RT, RF: the borrow exposed (R147). -/
def execSubOvf (rt rf : Reg) (s : State) : Host.Outcome State Fault Refusal :=
  .next ((s.setReg rt (aluSub (s.aluOperand rt) (s.aluOperand rf)).1.toNat).retire 1
    (some (aluSub (s.aluOperand rt) (s.aluOperand rf)).2))

end Sys2Proof.Machine
end

