-- ==== Sys2Proof/Machine/Logic.lean ====
section
/-!
DEFINITION. The logic instructions (spec/42_logic.md R128 to R134): operands read at the start of the step, the result to
the first operand's register, `pc <- pc + 1`, no overflow output.
-/

namespace Sys2Proof.Machine

/-- Not RR (R128). -/
def execNot (rr : Reg) (s : State) : Host.Outcome State Fault Refusal :=
  .next ((s.setReg rr (aluNot (s.aluOperand rr)).toNat).retire 1 none)

/-- Nand RT, RF (R129). -/
def execNand (rt rf : Reg) (s : State) : Host.Outcome State Fault Refusal :=
  .next ((s.setReg rt (aluNand (s.aluOperand rt) (s.aluOperand rf)).toNat).retire 1 none)

/-- And RT, RF (R130). -/
def execAnd (rt rf : Reg) (s : State) : Host.Outcome State Fault Refusal :=
  .next ((s.setReg rt (aluAnd (s.aluOperand rt) (s.aluOperand rf)).toNat).retire 1 none)

/-- Nor RT, RF (R131). -/
def execNor (rt rf : Reg) (s : State) : Host.Outcome State Fault Refusal :=
  .next ((s.setReg rt (aluNor (s.aluOperand rt) (s.aluOperand rf)).toNat).retire 1 none)

/-- Or RT, RF (R132). -/
def execOr (rt rf : Reg) (s : State) : Host.Outcome State Fault Refusal :=
  .next ((s.setReg rt (aluOr (s.aluOperand rt) (s.aluOperand rf)).toNat).retire 1 none)

/-- Xnor RT, RF (R133). -/
def execXnor (rt rf : Reg) (s : State) : Host.Outcome State Fault Refusal :=
  .next ((s.setReg rt (aluXnor (s.aluOperand rt) (s.aluOperand rf)).toNat).retire 1 none)

/-- Xor RT, RF (R134). -/
def execXor (rt rf : Reg) (s : State) : Host.Outcome State Fault Refusal :=
  .next ((s.setReg rt (aluXor (s.aluOperand rt) (s.aluOperand rf)).toNat).retire 1 none)

end Sys2Proof.Machine
end

