-- ==== Sys2Proof/Machine/Transfer.lean ====
section
/-!
DEFINITION. The transfer instructions (spec/41_transfer.md R100 to R106). A meaning runs when the step has fetched and
decoded the instruction and its literal (40_control_unit.md R87).
-/

namespace Sys2Proof.Machine

/-- LoadConst RT, lit: `x[rt] <- lit`, `pc <- pc + 2` (R100). -/
def execLoadConst (rt : Reg) (lit : Nat) (s : State) : Host.Outcome State Fault Refusal :=
  .next ((s.setReg rt lit).retire 2 none)

/-- LoadMem RT: the Word at the address, in either addressing mode; `MemoryOutOfRange` past the end (R102). -/
def execLoadMem (rt : Reg) (addr : MemAddr) (s : State) : Host.Outcome State Fault Refusal :=
  if s.InRange (s.effectiveAddress rt addr) then
    .next ((s.setReg rt (s.memRead (s.effectiveAddress rt addr))).retire addr.instrWords none)
  else .next (s.raise .memoryOutOfRange)

/-- StoreMem RF: stores `x[rf]` at the address, in either addressing mode; `MemoryOutOfRange` past the end (R104). -/
def execStoreMem (rf : Reg) (addr : MemAddr) (s : State) : Host.Outcome State Fault Refusal :=
  if s.InRange (s.effectiveAddress rf addr) then
    .next ((s.memWrite (s.effectiveAddress rf addr) (s.reg rf)).retire addr.instrWords none)
  else .next (s.raise .memoryOutOfRange)

/-- Move RT, RF: `x[rt] <- x[rf]` (R106). -/
def execMove (rt rf : Reg) (s : State) : Host.Outcome State Fault Refusal :=
  .next ((s.moveReg rt rf).retire 1 none)

end Sys2Proof.Machine
end

