-- ==== Sys2Proof/Machine/Dispatch.lean ====
section
/-!
DEFINITION. Dispatch: the descriptor's operation selects the instruction's meaning (spec/40_control_unit.md R88).
-/

namespace Sys2Proof.Machine

def exec (i : Instr) (s : State) : Host.Outcome State Fault Refusal :=
  match i with
  | .loadConst rt lit => Sys2Proof.Machine.execLoadConst rt lit s
  | .loadMem rt addr => Sys2Proof.Machine.execLoadMem rt addr s
  | .storeMem rf addr => Sys2Proof.Machine.execStoreMem rf addr s
  | .not rr => Sys2Proof.Machine.execNot rr s
  | .move rt rf => Sys2Proof.Machine.execMove rt rf s
  | .nand rt rf => Sys2Proof.Machine.execNand rt rf s
  | .and rt rf => Sys2Proof.Machine.execAnd rt rf s
  | .nor rt rf => Sys2Proof.Machine.execNor rt rf s
  | .or rt rf => Sys2Proof.Machine.execOr rt rf s
  | .xnor rt rf => Sys2Proof.Machine.execXnor rt rf s
  | .xor rt rf => Sys2Proof.Machine.execXor rt rf s
  | .add rt rf => Sys2Proof.Machine.execAdd rt rf s
  | .addOvf rt rf => Sys2Proof.Machine.execAddOvf rt rf s
  | .sub rt rf => Sys2Proof.Machine.execSub rt rf s
  | .subOvf rt rf => Sys2Proof.Machine.execSubOvf rt rf s

end Sys2Proof.Machine
end

