-- ==== Sys2Proof/Machine/Step.lean ====
section
/-!
DEFINITION. One step of the control unit (spec/40_control_unit.md R80 to R87): fetch, decode, execute.
-/

namespace Sys2Proof.Machine

/-- One step (R87). On a legal instance it is total, and always a next state (R80): a halt, a fault the core takes and a
step in a terminal state are next states too (R81 to R84). On an illegal one the model stops (log entry 6). -/
def step (s : State) : Host.Outcome State Fault Refusal :=
  if s.LegalInstance then
    match s.fetch with
    | .idle => .next s.idle
    | .endOfStream => .next s.halt
    | .reject kind => .next (s.raise kind)
    | .run i => exec i s
  else .fault .illegalInstance

/-- The state with a table word's instruction at `pc` in the stream, the core running: what the host's load does for
one instruction (R95; log entry 4). -/
def State.withFetchWord (s : State) (nbits w : Nat) : State :=
  s.placeAtPc (tableWords s.cfg.wordBits nbits w)

end Sys2Proof.Machine
end

