-- ==== Sys2Proof/Machine/Transactions.lean ====
section
/-!
DEFINITION. The core's interface to its host, at the level of whole transactions (spec/40_control_unit.md R95;
70_reset_and_hazards.md R180, R182): configure, load, reset and inspect, beside `step`. All of them act between steps.
-/

namespace Sys2Proof.Machine

/-- `configure`: fixes the instance. Nothing is loaded, and the core is as a reset leaves it. -/
def State.configure (c : Config) : State := { State.reset with cfg := c }

/-- The memory whose cells, from address `base` up, are those of an image given as a list. -/
def Memory.ofImage (base : Nat) : List Nat → Memory
  | [] => []
  | v :: rest => Memory.put base v (Memory.ofImage (base + 1) rest)

/-- What the host may load on an instance (00_scope.md R6, R8): a stream of Words that `PC_BITS` bits can index, and an
image that gives every cell a Word. -/
abbrev LegalLaunch (c : Config) (stream image : List Nat) : Prop :=
  stream.length < 2 ^ c.pcBits ∧ image.length = c.memWords ∧
    (∀ v ∈ stream, FitsWord c.wordBits v) ∧ (∀ v ∈ image, FitsWord c.wordBits v)

/-- `load`: sets the stream and the memory (R95). -/
def State.load (s : State) (stream image : List Nat) : State :=
  { s with stream := stream, mem := Memory.ofImage 0 image }

/-- `reset`: registers 0, `pc` 0, `Running`; data memory and the stream are not touched (R180). -/
def State.resetCore (s : State) : State :=
  { s with regs := { r0 := 0, r1 := 0, r2 := 0, r3 := 0 }, pc := 0, run := .running, ovf := none }

/-- The state a run starts from: configure, load, reset (R182). -/
def State.launch (c : Config) (stream image : List Nat) : State :=
  ((State.configure c).load stream image).resetCore

/-- What the host's `step` is answered: the run state, and the overflow output (R95). -/
def State.reply (s : State) : RunState × Option Bool := (s.run, s.ovf)

/-- What the host may ask the Inspector for (R95). -/
inductive InspectRequest where
  | register (r : Reg)
  | memory (a : Nat)
  /-- The stream Word at an index: the instruction bits a fault does not record (60_exceptions.md R161; log entry 12). -/
  | streamWord (p : Nat)
  | programCounter
  | runState
  deriving DecidableEq, Repr

/-- What the Inspector answers (R95). -/
inductive InspectReply where
  | word (v : Nat)
  | index (p : Nat)
  | runState (r : RunState)
  /-- The request named nothing: an address not below `MEM_WORDS`, or an index not below `len(stream)`. -/
  | noSuchCell
  deriving DecidableEq, Repr

/-- `inspect`: reads, and changes nothing (R95; 20_memory.md R57; 60_exceptions.md R161 for the stream). -/
def State.inspect (s : State) : InspectRequest → InspectReply
  | .register r => .word (s.reg r)
  | .memory a => if s.InRange a then .word (s.memRead a) else .noSuchCell
  | .streamWord p =>
    match s.stream[p]? with
    | some w => .word w
    | none => .noSuchCell
  | .programCounter => .index s.pc
  | .runState => .runState s.run

end Sys2Proof.Machine
end

