-- ==== Sys2Proof/Safety.lean ====
section
/-!
DEFINITION. What counts as a sound state and a safe run, and the frames of the instructions, in the terms the statements
use.
-/

namespace Sys2Proof.Machine

/-- Every register holds a Word of the instance (10_state.md R21). -/
abbrev RegFile.Fits (w : Nat) (f : RegFile) : Prop :=
  FitsWord w f.r0 ∧ FitsWord w f.r1 ∧ FitsWord w f.r2 ∧ FitsWord w f.r3

/-- Memory is in canonical form and lists only cells that exist, each holding a Word of the instance (20_memory.md
R40). -/
abbrev Memory.Fits (c : Config) (m : Memory) : Prop :=
  m.wf ∧ ∀ x ∈ m, x.1 < c.memWords ∧ FitsWord c.wordBits x.2

/-- What a run state says of the rest of the state: `Halted` at the end of the stream (R165); `Faulted` with the `pc` of
the instruction that faulted, which is in the stream, and `pc` still there (R164). -/
def RunState.agrees (pc len : Nat) : RunState → Bool
  | .running => true
  | .halted => decide (pc = len)
  | .faulted _ p => decide (p = pc) && decide (pc < len)

/-- The sound states: the parameters are legal (R6), `pc` is at most `len(stream)` (R86), every register, stream element
and memory cell holds a Word (R10), memory is canonical, the run state agrees with `pc`, and a terminal state carries no
overflow output (R27). -/
structure State.Inv (s : State) : Prop where
  legal : s.LegalInstance
  pcBound : s.pc ≤ s.stream.length
  regsFit : s.regs.Fits s.cfg.wordBits
  streamFits : ∀ v ∈ s.stream, FitsWord s.cfg.wordBits v
  memFits : s.mem.Fits s.cfg
  runAgrees : s.run.agrees s.pc s.stream.length = true
  terminalOvf : s.run ≠ .running → s.ovf = none

/-- A run is over when the run state is `Halted` or `Faulted` (R91). -/
def State.Terminal (s : State) : Prop := s.run ≠ .running

/-- The frame of an instruction whose destination is the register `rt`: every other register, every memory cell, the run
state, the stream and the parameters are unchanged. -/
def RegisterFrame (rt : Reg) (s t : State) : Prop :=
  (∀ r, r ≠ rt → t.reg r = s.reg r) ∧ (∀ a, t.memRead a = s.memRead a) ∧
    t.run = s.run ∧ t.stream = s.stream ∧ t.cfg = s.cfg

/-- The frame of an instruction that stores to the cell at `addr`: every register, every other memory cell, the run
state, the stream and the parameters are unchanged. -/
def StoreFrame (addr : Nat) (s t : State) : Prop :=
  (∀ r, t.reg r = s.reg r) ∧ (∀ a, a ≠ addr → t.memRead a = s.memRead a) ∧
    t.run = s.run ∧ t.stream = s.stream ∧ t.cfg = s.cfg

/-- A two-operand logic instruction of class `base`, bit by bit: its encoding; that it completes, for all registers and
in every state; that bit `j` of the destination becomes `gate` of bit `j` of the two operands, both as they were at the
start of the step, and that the result is a Word; that `pc` moves on by one and no overflow output is given; its
frame. -/
def BitwiseInstruction (base : Nat) (mk : Reg → Reg → Instr) (gate : Bool → Bool → Bool) : Prop :=
  ∀ (rt rf : Reg) (s : State),
    (∀ m rest, decode m ((base + 4 * rt.index + rf.index) :: rest) = .ok (mk rt rf, rest)) ∧
    ∃ t, exec (mk rt rf) s = .next t ∧
      (∀ j, j < s.cfg.wordBits →
        (t.reg rt).testBit j = gate ((s.reg rt).testBit j) ((s.reg rf).testBit j)) ∧
      FitsWord s.cfg.wordBits (t.reg rt) ∧
      t.pc = s.pc + 1 ∧ t.ovf = none ∧ RegisterFrame rt s t

/-- The register an instruction writes, if it writes one (10_state.md R33). -/
def destinationOf : Instr → Option Reg
  | .loadConst rt _ => some rt
  | .loadMem rt _ => some rt
  | .storeMem _ _ => none
  | .not rr => some rr
  | .move rt _ => some rt
  | .nand rt _ => some rt
  | .and rt _ => some rt
  | .nor rt _ => some rt
  | .or rt _ => some rt
  | .xnor rt _ => some rt
  | .xor rt _ => some rt
  | .add rt _ => some rt
  | .addOvf rt _ => some rt
  | .sub rt _ => some rt
  | .subOvf rt _ => some rt

/-- The cell an instruction stores to: a StoreMem's effective address; no other instruction stores (10_state.md R30). -/
def storeAddress (s : State) : Instr → Option Nat
  | .storeMem rf addr => some (s.effectiveAddress rf addr)
  | .loadConst _ _ | .loadMem _ _ | .not _ | .move _ _ | .nand _ _ | .and _ _ | .nor _ _ | .or _ _
  | .xnor _ _ | .xor _ _ | .add _ _ | .addOvf _ _ | .sub _ _ | .subOvf _ _ => none

/-- The address an instruction accesses in data memory: LoadMem and StoreMem alone access it (20_memory.md R41). -/
def accessAddress (s : State) : Instr → Option Nat
  | .loadMem rt addr => some (s.effectiveAddress rt addr)
  | .storeMem rf addr => some (s.effectiveAddress rf addr)
  | .loadConst _ _ | .not _ | .move _ _ | .nand _ _ | .and _ _ | .nor _ _ | .or _ _
  | .xnor _ _ | .xor _ _ | .add _ _ | .addOvf _ _ | .sub _ _ | .subOvf _ _ => none

end Sys2Proof.Machine
end

