-- ==== Sys2Proof/Certificates/Slice0/Obligations.lean ====
section
/-!
DEFINITION. The statements for the provers. A docstring says which sentence of the spec a statement formalises; where a
statement rests on one of the spec's own decisions or inferences, or on a choice of the model, it says so.
-/

open Sys2Proof Sys2Proof.Machine

/-! ## The transfer instructions (spec/41_transfer.md) -/

/-- LoadConst, all registers, all literals, every state: its encoding, that it completes, its result and its frame; and
that the decoder rejects it where no literal follows, which is the spec's own decision (92_eei_decisions.md D4). -/
def Obligations.LoadConstWritesItsLiteral : Prop :=
  ∀ (rt : Reg) (lit : Nat) (s : State),
    (∀ m rest, decode m ((0x00 + rt.index) :: lit :: rest) = .ok (.loadConst rt lit, rest)) ∧
    (∀ m, decode m [0x00 + rt.index] = .error .truncatedLiteral) ∧
    ∃ t, exec (.loadConst rt lit) s = .next t ∧ t.reg rt = lit ∧
      t.pc = s.pc + 2 ∧ t.ovf = none ∧ RegisterFrame rt s t

/-- LoadMem in both addressing modes: its encodings, the address each form gives, that it completes in range with its
result and its frame, and that it takes `MemoryOutOfRange` past the end of memory with nothing else changed. The two
modes are the spec's own decision (92_eei_decisions.md D3), and so is the missing literal (D4). -/
def Obligations.LoadMemLoadsTheAddressedWord : Prop :=
  ∀ (rt : Reg) (s : State),
    (∀ rest, decode .registerIndirect ((0x04 + rt.index) :: rest) = .ok (.loadMem rt .viaRegister, rest)) ∧
    (∀ a rest, decode .trailingLiteral ((0x04 + rt.index) :: a :: rest) = .ok (.loadMem rt (.literal a), rest)) ∧
    decode .trailingLiteral [0x04 + rt.index] = .error .truncatedLiteral ∧
    s.effectiveAddress rt .viaRegister = s.reg rt ∧
    (∀ a, s.effectiveAddress rt (.literal a) = a) ∧
    ∀ addr : MemAddr,
      if s.effectiveAddress rt addr < s.cfg.memWords then
        ∃ t, exec (.loadMem rt addr) s = .next t ∧
          t.reg rt = s.memRead (s.effectiveAddress rt addr) ∧
          t.pc = (if addr = .viaRegister then s.pc + 1 else s.pc + 2) ∧ t.ovf = none ∧ RegisterFrame rt s t
      else exec (.loadMem rt addr) s = .next { s with run := .faulted .memoryOutOfRange s.pc, ovf := none }

/-- StoreMem in both addressing modes: its encodings, the address each form gives, that it completes in range, storing
`x[rf]` at that address and changing no other cell and no register, and that it takes `MemoryOutOfRange` past the end of
memory with nothing else changed. The two modes are the spec's own decision (92_eei_decisions.md D3), and so is the missing
literal (D4). The premise is the memory's canonical form, which `SoundStatesStaySound` keeps. -/
def Obligations.StoreMemStoresAtItsAddressOnly : Prop :=
  ∀ (rf : Reg) (s : State), s.mem.wf →
    (∀ rest, decode .registerIndirect ((0x08 + rf.index) :: rest) = .ok (.storeMem rf .viaRegister, rest)) ∧
    (∀ a rest, decode .trailingLiteral ((0x08 + rf.index) :: a :: rest) = .ok (.storeMem rf (.literal a), rest)) ∧
    decode .trailingLiteral [0x08 + rf.index] = .error .truncatedLiteral ∧
    s.effectiveAddress rf .viaRegister = s.reg rf ∧
    (∀ a, s.effectiveAddress rf (.literal a) = a) ∧
    ∀ addr : MemAddr,
      if s.effectiveAddress rf addr < s.cfg.memWords then
        ∃ t, exec (.storeMem rf addr) s = .next t ∧
          t.memRead (s.effectiveAddress rf addr) = s.reg rf ∧
          t.pc = (if addr = .viaRegister then s.pc + 1 else s.pc + 2) ∧ t.ovf = none ∧
          StoreFrame (s.effectiveAddress rf addr) s t
      else exec (.storeMem rf addr) s = .next { s with run := .faulted .memoryOutOfRange s.pc, ovf := none }

/-- Move, all registers, every state (41_transfer.md R106): "copy RF's value into RT; advance by 1". RF keeps its value,
and RT = RF changes no register. -/
def Obligations.MoveCopiesRegister : Prop :=
  ∀ (rt rf : Reg) (s : State),
    (∀ m rest, decode m ((0x10 + 4 * rt.index + rf.index) :: rest) = .ok (.move rt rf, rest)) ∧
    ∃ t, exec (.move rt rf) s = .next t ∧ t.reg rt = s.reg rf ∧ t.reg rf = s.reg rf ∧
      t.pc = s.pc + 1 ∧ t.ovf = none ∧ RegisterFrame rt s t

/-- A store and then a load at the same address, in any mix of address forms, give the stored Word: "Executing a single
Store then a single Load at the same address returns the stored value unchanged" (95_test_vectors.md E4). -/
def Obligations.LoadAfterStoreReturnsStoredWord : Prop :=
  ∀ (rf rt : Reg) (src dst : MemAddr) (s t : State), s.mem.wf →
    s.effectiveAddress rf dst < s.cfg.memWords →
    exec (.storeMem rf dst) s = .next t →
    t.effectiveAddress rt src = s.effectiveAddress rf dst →
    ∃ u, exec (.loadMem rt src) t = .next u ∧ u.reg rt = s.reg rf ∧ u.run = s.run

/-- Memory over any sequence of writes: a read gives the Word most recently written to the address, or what memory held
at first if there was none (20_memory.md section 2, R45 and R46, which the spec marks as its own inference). The pairs are
(address, Word), the first written first. -/
def Obligations.ReadReturnsMostRecentWrite : Prop :=
  ∀ (writes : List (Nat × Nat)) (m : Memory) (a : Nat), m.wf →
    (writes.foldl (fun acc x => acc.write x.1 x.2) m).read a =
      match writes.reverse.find? (fun x => x.1 == a) with
      | some x => x.2
      | none => m.read a

/-! ## The ALU and the logic instructions (spec/42_logic.md) -/

/-- NAND, for every width: bit by bit, and as `MASK - (a & b)` (42_logic.md R120). -/
def Obligations.NandIsComplementOfConjunction : Prop :=
  ∀ (w : Nat) (a b : Word w),
    (∀ j, j < w → (aluNand a b).getLsbD j = if a.getLsbD j = true ∧ b.getLsbD j = true then false else true) ∧
    (aluNand a b).toNat = wordMask w - (a.toNat &&& b.toNat)

/-- The truth table of the derived gates, for every width, every pair of Words and every bit, each gate being the
composition of NAND applications of the construction table. The constructions of NOT and XNOR are the spec's own
inference, and NOR's follows 90_conflicts.md C1 (42_logic.md section 1, R121 and R122). -/
def Obligations.DerivedGatesMeetTruthTable : Prop :=
  ∀ (w : Nat) (a b : Word w) (j : Nat), j < w →
    (aluNot a).getLsbD j = (!a.getLsbD j) ∧
    (aluAnd a b).getLsbD j = (a.getLsbD j && b.getLsbD j) ∧
    (aluNor a b).getLsbD j = (!(a.getLsbD j || b.getLsbD j)) ∧
    (aluOr a b).getLsbD j = (a.getLsbD j || b.getLsbD j) ∧
    (aluXnor a b).getLsbD j = (a.getLsbD j == b.getLsbD j) ∧
    (aluXor a b).getLsbD j = (a.getLsbD j != b.getLsbD j)

/-- The laws of the logic functions, for every width (42_logic.md R124). -/
def Obligations.LogicFunctionsSatisfyTheirLaws : Prop :=
  ∀ (w : Nat) (a b : Word w),
    aluNand a b = aluNot (aluAnd a b) ∧ aluAnd a b = aluNot (aluNand a b) ∧
    aluOr a b = aluNot (aluNor a b) ∧ aluXor a b = aluNot (aluXnor a b) ∧ aluNot (aluNot a) = a ∧
    aluNand a b = aluNand b a ∧ aluAnd a b = aluAnd b a ∧ aluNor a b = aluNor b a ∧
    aluOr a b = aluOr b a ∧ aluXnor a b = aluXnor b a ∧ aluXor a b = aluXor b a

/-- Not, all registers, every state (42_logic.md R128): its encoding, that it completes, its result bit by bit and its
frame. -/
def Obligations.NotComplementsRegister : Prop :=
  ∀ (rr : Reg) (s : State),
    (∀ m rest, decode m ((0x0C + rr.index) :: rest) = .ok (.not rr, rest)) ∧
    ∃ t, exec (.not rr) s = .next t ∧
      (∀ j, j < s.cfg.wordBits → (t.reg rr).testBit j = !(s.reg rr).testBit j) ∧
      FitsWord s.cfg.wordBits (t.reg rr) ∧
      t.pc = s.pc + 1 ∧ t.ovf = none ∧ RegisterFrame rr s t

/-- Nand, And, Nor, Or, Xnor and Xor, all registers (RT = RF too), every state (42_logic.md R129 to R134): encoding,
completion, result bit by bit and frame, as `BitwiseInstruction` says them. That Nor is the true NOR, and so Or the true OR,
is the resolution of 90_conflicts.md C1, and the bit-by-bit values are the truth table the spec infers (log entry 11). -/
def Obligations.LogicInstructionsComputeTheirGates : Prop :=
  BitwiseInstruction 0x20 .nand (fun x y => !(x && y)) ∧
  BitwiseInstruction 0x30 .and (fun x y => x && y) ∧
  BitwiseInstruction 0x40 .nor (fun x y => !(x || y)) ∧
  BitwiseInstruction 0x50 .or (fun x y => x || y) ∧
  BitwiseInstruction 0x60 .xnor (fun x y => x == y) ∧
  BitwiseInstruction 0x70 .xor (fun x y => x != y)

/-! ## The adder, the subtractor and the arithmetic instructions (spec/43_arithmetic.md) -/

/-- The adder and the subtractor, for every width: the wrapped result and the exact condition of the flag
(43_arithmetic.md R140, R141). -/
def Obligations.AdderAndSubtractorAreExact : Prop :=
  ∀ (w : Nat) (a b : Word w),
    (aluAdd a b).1.toNat = (a.toNat + b.toNat) % 2 ^ w ∧
    (aluAdd a b).2 = decide (2 ^ w ≤ a.toNat + b.toNat) ∧
    ((aluAdd a b).2 = true ↔ wordMask w < a.toNat + b.toNat) ∧
    (aluSub a b).1.toNat = (if b.toNat ≤ a.toNat then a.toNat - b.toNat else a.toNat + 2 ^ w - b.toNat) ∧
    (aluSub a b).2 = decide (a.toNat < b.toNat)

/-- Add and Sub, all registers, every state (43_arithmetic.md R144, R146): encoding, completion, the result modulo
`2^W`, no overflow output even where there is a carry or a borrow, and the frame. -/
def Obligations.AddAndSubWrapWithoutFlag : Prop :=
  ∀ (rt rf : Reg) (s : State),
    (∀ m rest, decode m ((0x80 + 4 * rt.index + rf.index) :: rest) = .ok (.add rt rf, rest)) ∧
    (∀ m rest, decode m ((0xA0 + 4 * rt.index + rf.index) :: rest) = .ok (.sub rt rf, rest)) ∧
    (∃ t, exec (.add rt rf) s = .next t ∧
      t.reg rt = (s.reg rt + s.reg rf) % 2 ^ s.cfg.wordBits ∧
      t.pc = s.pc + 1 ∧ t.ovf = none ∧ RegisterFrame rt s t) ∧
    (∃ t, exec (.sub rt rf) s = .next t ∧
      (t.reg rt : Int) = ((s.reg rt : Int) - (s.reg rf : Int)) % 2 ^ s.cfg.wordBits ∧
      t.pc = s.pc + 1 ∧ t.ovf = none ∧ RegisterFrame rt s t)

/-- AddOvf and SubOvf, all registers, every state whose registers hold Words (which `SoundStatesStaySound` keeps): the
result of Add and Sub, and the carry or borrow as the step's overflow output (43_arithmetic.md section 2, R145 and R147).
The form of the output, and that nothing latches it, are the spec's own decision (92_eei_decisions.md D7). -/
def Obligations.AddOvfAndSubOvfExposeTheFlag : Prop :=
  ∀ (rt rf : Reg) (s : State), s.regs.Fits s.cfg.wordBits →
    (∀ m rest, decode m ((0x90 + 4 * rt.index + rf.index) :: rest) = .ok (.addOvf rt rf, rest)) ∧
    (∀ m rest, decode m ((0xB0 + 4 * rt.index + rf.index) :: rest) = .ok (.subOvf rt rf, rest)) ∧
    (∃ t, exec (.addOvf rt rf) s = .next t ∧
      t.reg rt = (s.reg rt + s.reg rf) % 2 ^ s.cfg.wordBits ∧
      t.ovf = some (decide (2 ^ s.cfg.wordBits ≤ s.reg rt + s.reg rf)) ∧
      t.pc = s.pc + 1 ∧ RegisterFrame rt s t) ∧
    (∃ t, exec (.subOvf rt rf) s = .next t ∧
      t.reg rt = (if s.reg rf ≤ s.reg rt then s.reg rt - s.reg rf
        else s.reg rt + 2 ^ s.cfg.wordBits - s.reg rf) ∧
      t.ovf = some (decide (s.reg rt < s.reg rf)) ∧
      t.pc = s.pc + 1 ∧ RegisterFrame rt s t)

/-- Exposing the flag changes nothing else: AddOvf and Add, and SubOvf and Sub, end in states that differ in the overflow
output alone ("`sum` and `diff` do not depend on whether the flag is exposed", 43_arithmetic.md R142). -/
def Obligations.ExposingTheFlagChangesNothingElse : Prop :=
  ∀ (rt rf : Reg) (s : State),
    (∃ t u, exec (.add rt rf) s = .next t ∧ exec (.addOvf rt rf) s = .next u ∧
      t.ovf = none ∧ u.ovf ≠ none ∧ t = { u with ovf := none }) ∧
    (∃ t u, exec (.sub rt rf) s = .next t ∧ exec (.subOvf rt rf) s = .next u ∧
      t.ovf = none ∧ u.ovf ≠ none ∧ t = { u with ovf := none })

/-- The idioms of 30_encoding.md R73, which the spec derives from the instructions' rules (and lists by its own decision,
92_eei_decisions.md D13), in every state whose registers hold Words. -/
def Obligations.SameRegisterIdioms : Prop :=
  ∀ (r : Reg) (s : State), s.regs.Fits s.cfg.wordBits →
    (∃ t, exec (.xor r r) s = .next t ∧ t.reg r = 0) ∧
    (∃ t, exec (.sub r r) s = .next t ∧ t.reg r = 0) ∧
    (∃ t, exec (.xnor r r) s = .next t ∧ t.reg r = wordMask s.cfg.wordBits) ∧
    exec (.move r r) s = .next { s with pc := s.pc + 1, ovf := none } ∧
    exec (.and r r) s = .next { s with pc := s.pc + 1, ovf := none } ∧
    exec (.or r r) s = .next { s with pc := s.pc + 1, ovf := none } ∧
    exec (.nand r r) s = exec (.not r) s ∧
    exec (.nor r r) s = exec (.not r) s ∧
    (∃ t, exec (.add r r) s = .next t ∧ t.reg r = 2 * s.reg r % 2 ^ s.cfg.wordBits)

/-! ## Encoding (spec/30_encoding.md) -/

/-- Decode after encode, for every instruction of every instance, every operand at every value, whatever Words follow. -/
def Obligations.DecodeInvertsEncode : Prop :=
  ∀ (c : Config) (i : Instr) (rest : List Nat), i.wellFormed c = true →
    decode c.memAddrMode (encode i ++ rest) = .ok (i, rest)

/-- Encode after decode: each list of Words has one meaning, and an instruction decoded from Words of an instance is one
that exists on that instance. -/
def Obligations.EncodeInvertsDecode : Prop :=
  ∀ (m : MemAddrMode) (ws : List Nat) (i : Instr) (rest : List Nat), decode m ws = .ok (i, rest) →
    encode i ++ rest = ws ∧
    ∀ c : Config, c.memAddrMode = m → (∀ v ∈ ws, FitsWord c.wordBits v) → i.wellFormed c = true

/-- The decoder and the opcode map agree, in either mode: a value below 0xC0 is covered by exactly one row, and the decoder
gives that row's operation; a value from 0xC0 to 0xFF is covered by none (30_encoding.md R74, whose map the spec derives
from its formats). -/
def Obligations.OpcodeMapCoversEachValueOnce : Prop :=
  ∀ (m : MemAddrMode) (v : Nat), v < 2 ^ 8 →
    if v < 0xC0 then
      ∃ i, decodeWord m v = some i ∧
        (opcodeMap.filter fun r => r.covers (BitVec.ofNat 8 v)).map OpcodeRow.op = [i.opcode]
    else (opcodeMap.filter fun r => r.covers (BitVec.ofNat 8 v)) = []

/-- The decoder's descriptor, for every number as a Word and in either mode, as the decoder's pseudocode gives it from the
fields `w / 16`, `w / 4 % 4` and `w % 4` (30_encoding.md section 7, R71; the invalid Words of `2^8` or more and the modes are
the spec's own decisions 92_eei_decisions.md D2 and D3). -/
def Obligations.DescriptorFollowsTheFields : Prop :=
  ∀ (m : MemAddrMode) (w : Nat) (upper lower : Reg), upper.index = w / 4 % 4 → lower.index = w % 4 →
    describe m w =
      match w / 16 with
      | 0 =>
        match w / 4 % 4 with
        | 0 => some ⟨.loadConst, some lower, none, true⟩
        | 1 => some ⟨.loadMem, some lower, some lower, decide (m = .trailingLiteral)⟩
        | 2 => some ⟨.storeMem, none, some lower, decide (m = .trailingLiteral)⟩
        | _ => some ⟨.not, some lower, some lower, false⟩
      | cls + 1 =>
        ([Opcode.move, .nand, .and, .nor, .or, .xnor, .xor, .add, .addOvf, .sub, .subOvf])[cls]?.map
          fun op => ⟨op, some upper, some lower, false⟩

/-- The invalid Words, of any width, are exactly those from 0xC0 up: classes `1100` to `1111` (30_encoding.md R67) and
every Word of `2^8` or more, whose upper bits are never dropped (R68, the spec's own decision 92_eei_decisions.md D2). -/
def Obligations.InvalidWordsAreThoseFromC0 : Prop :=
  ∀ (m : MemAddrMode) (w : Nat), decodeWord m w = none ↔ 0xC0 ≤ w

/-- The length rule: an instruction takes a trailing literal iff `i[7:2]` is `000000`, or, in `trailing_literal` mode, also
`000001` or `000010`; the Words after it are left as they were (30_encoding.md R70; the mode is the spec's own decision,
92_eei_decisions.md D3). -/
def Obligations.LengthIsToldByTheFirstWord : Prop :=
  ∀ (m : MemAddrMode) (w : Nat) (ws : List Nat) (i : Instr) (rest : List Nat),
    decode m (w :: ws) = .ok (i, rest) →
    if w / 4 = 0 ∨ (m = .trailingLiteral ∧ (w / 4 = 1 ∨ w / 4 = 2)) then i.length = 2 ∧ rest = ws.drop 1
    else i.length = 1 ∧ rest = ws

/-- A few Words written out from the encodings decode to what they stand for: `0x02` with its literal is 95_test_vectors.md
E1 and T1, the others are of section 2.1. The `trailing_literal` reading of `0x08` is the spec's own decision
92_eei_decisions.md D3 (T12), and the refusal of `0x0100` its decision D2 (log entry 10). -/
def Obligations.DecoderReadsTheSpecsWords : Prop :=
  decode .registerIndirect [0x02, 0x05] = .ok (.loadConst .r2 5, []) ∧
  decode .registerIndirect [0x07, 0x05] = .ok (.loadMem .r3 .viaRegister, [5]) ∧
  decode .trailingLiteral [0x08, 0x05] = .ok (.storeMem .r0 (.literal 5), []) ∧
  decode .registerIndirect [0x1B] = .ok (.move .r2 .r3, []) ∧
  decode .registerIndirect [0x46] = .ok (.nor .r1 .r2, []) ∧
  decode .registerIndirect [0x9D] = .ok (.addOvf .r3 .r1, []) ∧
  decode .registerIndirect [0xC0] = .error .invalidOpcode ∧
  decode .registerIndirect [0x0100] = .error .invalidOpcode

/-! ## The step (spec/40_control_unit.md, 60_exceptions.md) -/

/-- A step runs the decoded instruction: on a legal instance, when the core runs and the Words at `pc` decode, the step is
the instruction's meaning and nothing is added around it. -/
def Obligations.StepRunsTheDecodedInstruction : Prop :=
  ∀ (s : State) (i : Instr) (rest : List Nat), s.LegalInstance → s.run = .running →
    decode s.cfg.memAddrMode (s.stream.drop s.pc) = .ok (i, rest) → step s = exec i s

/-- On a legal instance a step always has a next state: it is total, and no fault of the model stops it
(40_control_unit.md R80). -/
def Obligations.StepIsTotal : Prop :=
  ∀ s : State, s.LegalInstance → ∃ t, step s = .next t

/-- The model's choice (log entry 6): outside the legal parameters of 00_scope.md R6 the model stops. -/
def Obligations.StepStopsOnIllegalInstance : Prop :=
  ∀ s : State,
    (s.cfg.wordBits < 8 ∨ s.cfg.pcBits < s.cfg.wordBits ∨ 2 ^ s.cfg.pcBits ≤ s.stream.length) →
    step s = .fault .illegalInstance

/-- The order of a step's checks up to execution: not running, end of stream, `InvalidOpcode`, `TruncatedLiteral`
(60_exceptions.md R166, the spec's own decision 92_eei_decisions.md D18; the missing literal is its decision D4). The
fifth, `MemoryOutOfRange`, is the instruction's: see `MemoryFaultExactlyOutOfRange`. -/
def Obligations.StepChecksInOrder : Prop :=
  ∀ s : State, s.LegalInstance →
    step s =
      if s.run ≠ .running then .next { s with ovf := none }
      else if s.stream.length ≤ s.pc then .next { s with run := .halted, ovf := none }
      else
        match decodeWord s.cfg.memAddrMode (s.stream.getD s.pc 0) with
        | none => .next { s with run := .faulted .invalidOpcode s.pc, ovf := none }
        | some i =>
          if i.consumesLiteral = true ∧ s.stream.length ≤ s.pc + 1 then
            .next { s with run := .faulted .truncatedLiteral s.pc, ovf := none }
          else exec (i.withLiteral (s.stream.getD (s.pc + 1) 0)) s

/-- A running core halts exactly at the end of the stream, an empty stream included, and then nothing but the run state
changes (40_control_unit.md R82, 60_exceptions.md R165). -/
def Obligations.RunningCoreHaltsExactlyAtStreamEnd : Prop :=
  ∀ s : State, s.LegalInstance → s.run = .running →
    (step s = .next { s with run := .halted, ovf := none } ↔ s.stream.length ≤ s.pc) ∧
    ∀ t, step s = .next t → t.run = .halted → s.stream.length ≤ s.pc

/-- A running core takes `InvalidOpcode` exactly on a Word from 0xC0 up, with nothing else changed and `pc` recorded
(40_control_unit.md R83, 60_exceptions.md R161; for a Word of `2^8` or more and for the unchanged `pc` the spec's own
decisions 92_eei_decisions.md D2 and D6). -/
def Obligations.InvalidOpcodeExactlyOnInvalidWords : Prop :=
  ∀ (s : State) (w : Nat), s.LegalInstance → s.run = .running → s.stream[s.pc]? = some w →
    (step s = .next { s with run := .faulted .invalidOpcode s.pc, ovf := none } ↔ 0xC0 ≤ w)

/-- A running core takes `TruncatedLiteral` exactly when a literal-consuming instruction is the stream's last Word, with
nothing else changed and `pc` recorded (40_control_unit.md R84, 60_exceptions.md R163: the spec's own decision
92_eei_decisions.md D4). -/
def Obligations.TruncatedLiteralExactlyAtLastWord : Prop :=
  ∀ (s : State) (w : Nat), s.LegalInstance → s.run = .running → s.stream[s.pc]? = some w →
    (step s = .next { s with run := .faulted .truncatedLiteral s.pc, ovf := none } ↔
      s.pc + 1 = s.stream.length ∧
        (w / 4 = 0 ∨ (s.cfg.memAddrMode = .trailingLiteral ∧ (w / 4 = 1 ∨ w / 4 = 2))))

/-- Over all instructions: a meaning takes `MemoryOutOfRange` exactly when the instruction accesses data memory at an
address of `MEM_WORDS` or more, and no meaning takes any other fault (60_exceptions.md R162, whose unchanged `pc` is the
spec's own decision 92_eei_decisions.md D6). -/
def Obligations.MemoryFaultExactlyOutOfRange : Prop :=
  ∀ (i : Instr) (s : State),
    (exec i s = .next { s with run := .faulted .memoryOutOfRange s.pc, ovf := none } ↔
      ∃ a, accessAddress s i = some a ∧ s.cfg.memWords ≤ a) ∧
    ∀ t, exec i s = .next t →
      t.run = s.run ∨ t = { s with run := .faulted .memoryOutOfRange s.pc, ovf := none }

/-- A step that faults or halts writes nothing but the run state (00_scope.md section 4: "a step that faults or halts writes
nothing but `run`"), and a fault records the `pc` of the instruction it found (60_exceptions.md section 2, R164; with the
unchanged `pc` the spec's own decision 92_eei_decisions.md D6, log entry 10). -/
def Obligations.EndingStepWritesOnlyRunState : Prop :=
  ∀ s t : State, step s = .next t → s.run = .running → t.run ≠ .running →
    t = { s with run := t.run, ovf := none } ∧ ∀ k p, t.run = .faulted k p → p = s.pc

/-- A step in a terminal state changes nothing, and its overflow output is `none` (40_control_unit.md R81; the output is
the spec's own decision 92_eei_decisions.md D17). -/
def Obligations.TerminalStepChangesNothing : Prop :=
  ∀ s : State, s.LegalInstance → s.run ≠ .running →
    step s = .next { s with ovf := none } ∧ (s.ovf = none → step s = .next s)

/-- `Halted` and `Faulted` are terminal: any number of steps leaves them as they are, and a reset sets the core running
again (60_exceptions.md R168). The premise on the overflow output is part of the sound states. -/
def Obligations.TerminalStatesLastUntilReset : Prop :=
  ∀ (k : Nat) (s : State), s.LegalInstance → s.run ≠ .running → s.ovf = none →
    core.run k s = .next s ∧ s.resetCore.run = .running ∧ s.resetCore.pc = 0

/-! ## Whole-machine rules, over every step -/

/-- Over every step: a register changes only by an instruction that the core ran and whose RT or RR field names it
(10_state.md R33; that each writes exactly one register is the spec's own inference). -/
def Obligations.RegistersChangeOnlyByTheirInstructions : Prop :=
  ∀ (s t : State) (r : Reg), step s = .next t → t.reg r ≠ s.reg r →
    s.run = .running ∧ ∃ i rest, decode s.cfg.memAddrMode (s.stream.drop s.pc) = .ok (i, rest) ∧
      destinationOf i = some r

/-- Over every step: a memory cell changes only by a StoreMem that the core ran, and only the cell at its effective
address (10_state.md R30, 20_memory.md R46). -/
def Obligations.MemoryChangesOnlyByStoreMem : Prop :=
  ∀ (s t : State) (a : Nat), step s = .next t → t.memRead a ≠ s.memRead a →
    s.run = .running ∧ ∃ rf addr rest,
      decode s.cfg.memAddrMode (s.stream.drop s.pc) = .ok (.storeMem rf addr, rest) ∧
      s.effectiveAddress rf addr = a ∧ a < s.cfg.memWords ∧ (s.mem.wf → t.memRead a = s.reg rf)

/-- Over every step: the instruction stream and the parameters never change, so no store is ever seen by a fetch
(10_state.md R23, 20_memory.md R55; the disjoint spaces are the spec's own decision 92_eei_decisions.md D8). -/
def Obligations.StreamAndParametersNeverChange : Prop :=
  ∀ s t : State, step s = .next t → t.stream = s.stream ∧ t.cfg = s.cfg

/-- Over every step: `pc` stays where the run ends or has ended, and otherwise moves past exactly the instruction that was
run; there is no control transfer (40_control_unit.md R89). -/
def Obligations.PcMovesOnlyPastTheInstruction : Prop :=
  ∀ s t : State, step s = .next t →
    (t.pc = s.pc ∧ t.run ≠ .running) ∨
    ∃ i rest, s.run = .running ∧ decode s.cfg.memAddrMode (s.stream.drop s.pc) = .ok (i, rest) ∧
      t.pc = s.pc + i.length ∧ t.run = .running

/-- Over every step: an overflow output comes only from AddOvf, the carry, or SubOvf, the borrow, with registers that hold
Words (10_state.md R27; the output's form is the spec's own decision 92_eei_decisions.md D7). -/
def Obligations.OverflowOutputOnlyFromOvfInstructions : Prop :=
  ∀ (s t : State) (b : Bool), s.regs.Fits s.cfg.wordBits → step s = .next t → t.ovf = some b →
    ∃ rt rf rest,
      (decode s.cfg.memAddrMode (s.stream.drop s.pc) = .ok (.addOvf rt rf, rest) ∧
        b = decide (2 ^ s.cfg.wordBits ≤ s.reg rt + s.reg rf)) ∨
      (decode s.cfg.memAddrMode (s.stream.drop s.pc) = .ok (.subOvf rt rf, rest) ∧
        b = decide (s.reg rt < s.reg rf))

/-- No step reads the overflow output of the step before: two states that differ in it alone step to the same outcome
(10_state.md section 6: "No instruction reads it"; that the model holds the output in its state is log entry 5). -/
def Obligations.NoStepReadsTheOverflowOutput : Prop :=
  ∀ (s : State) (o : Option Bool), step { s with ovf := o } = step s

/-- Cells that no Word can address keep their value, where memory is larger than `2^W` Words (20_memory.md R50, the spec's
own inference). -/
def Obligations.UnreachableCellsKeepTheirWord : Prop :=
  ∀ (s t : State) (a : Nat), s.Inv → step s = .next t → 2 ^ s.cfg.wordBits ≤ a → t.memRead a = s.memRead a

/-- Every step keeps the sound states: `pc` at most `len(stream)`, every register, stream element and cell a Word, memory
canonical, and a run state that agrees with `pc` (40_control_unit.md R86, 00_scope.md R10). -/
def Obligations.SoundStatesStaySound : Prop :=
  ∀ s t : State, s.Inv → step s = .next t → t.Inv

/-- The state after reset is sound. -/
def Obligations.ResetStateIsSound : Prop := State.reset.Inv

/-- Every run ends within `len(stream) + 1` steps, from any state of a legal instance (40_control_unit.md R93,
70_reset_and_hazards.md R191, which the spec derives). -/
def Obligations.EveryRunEndsWithinStreamLength : Prop :=
  ∀ s : State, s.LegalInstance → ∃ t : State, core.run (s.stream.length + 1) s = .next t ∧ t.Terminal

/-! ## Reset and the host's transactions (spec/70_reset_and_hazards.md, 40_control_unit.md R95) -/

/-- The reset transaction, from every state, terminal ones included: registers 0, `pc` 0, `Running`; data memory, the
stream and the parameters untouched (70_reset_and_hazards.md R180; that memory is untouched is the spec's own decision
92_eei_decisions.md D16; the overflow output is the model's field, log entry 5). -/
def Obligations.ResetSetsCoreAndKeepsMemory : Prop :=
  ∀ s : State,
    (∀ r, s.resetCore.reg r = 0) ∧ s.resetCore.pc = 0 ∧ s.resetCore.run = .running ∧ s.resetCore.ovf = none ∧
    (∀ a, s.resetCore.memRead a = s.memRead a) ∧ s.resetCore.stream = s.stream ∧ s.resetCore.cfg = s.cfg ∧
    (s.Inv → s.resetCore.Inv)

/-- The state after reset with nothing loaded: the values of 10_state.md R32 for the registers, `pc` and the run state;
that no stream and no image are loaded is the model's choice (log entries 4 and 8), and its first step halts
(95_test_vectors.md K1). -/
def Obligations.ResetStateHoldsItsValues : Prop :=
  (∀ r, State.reset.reg r = 0) ∧ State.reset.pc = 0 ∧ State.reset.run = .running ∧
  (∀ a, State.reset.memRead a = 0) ∧ step State.reset = .next { State.reset with run := .halted }

/-- A launched run, of any legal instance, stream and image, starts sound (70_reset_and_hazards.md R182, 00_scope.md
R8). -/
def Obligations.LaunchedRunStartsSound : Prop :=
  ∀ (c : Config) (stream image : List Nat), c.Legal → LegalLaunch c stream image →
    (State.launch c stream image).Inv ∧ (State.launch c stream image).stream = stream

/-- A launched run's memory is its image: every cell reads the image's Word, by the core and by the Inspector
(00_scope.md R8, 10_state.md R32; the image as a launch input is the spec's own decision 92_eei_decisions.md D9). -/
def Obligations.LaunchedMemoryHoldsTheImage : Prop :=
  ∀ (c : Config) (stream image : List Nat) (a v : Nat), image.length = c.memWords → image[a]? = some v →
    (State.launch c stream image).memRead a = v ∧
    (State.launch c stream image).inspect (.memory a) = .word v

/-- After a step that takes `InvalidOpcode` the Inspector reads the offending Word from the stream at the recorded index, and
it is an invalid one (60_exceptions.md section 1, R161: the fault records the `pc` and not the bits, "which the Inspector can
read from the stream at `p`"; what a fault records is the spec's own decision 92_eei_decisions.md D6, and that a Word of
`2^8` or more is invalid its decision D2). -/
def Obligations.InvalidWordIsReadAtTheFaultIndex : Prop :=
  ∀ (s t : State) (p : Nat), step s = .next t → s.run = .running → t.run = .faulted .invalidOpcode p →
    ∃ w, t.inspect (.streamWord p) = .word w ∧ s.inspect (.streamWord s.pc) = .word w ∧ 0xC0 ≤ w

/-- A table word placed at `pc` is what the next step runs (log entry 4: the placing stands for the host's load). -/
def Obligations.PlacedWordIsRunNext : Prop :=
  ∀ (s : State) (nbits w : Nat) (i : Instr) (rest : List Nat),
    (s.withFetchWord nbits w).LegalInstance →
    decode s.cfg.memAddrMode (tableWords s.cfg.wordBits nbits w) = .ok (i, rest) →
    step (s.withFetchWord nbits w) = exec i (s.withFetchWord nbits w)
end

