-- ==== Sys2Proof/Laws/State.lean ====
section
/-!
SUPPORT. One lemma per field for each update of the state, so that no later proof unfolds a record update.
-/

namespace Sys2Proof.Machine

variable (s : State)

@[simp] theorem State.setReg_cfg (r : Reg) (v : Nat) : (s.setReg r v).cfg = s.cfg := rfl
@[simp] theorem State.setReg_regs (r : Reg) (v : Nat) : (s.setReg r v).regs = s.regs.write r v := rfl
@[simp] theorem State.setReg_pc (r : Reg) (v : Nat) : (s.setReg r v).pc = s.pc := rfl
@[simp] theorem State.setReg_run (r : Reg) (v : Nat) : (s.setReg r v).run = s.run := rfl
@[simp] theorem State.setReg_mem (r : Reg) (v : Nat) : (s.setReg r v).mem = s.mem := rfl
@[simp] theorem State.setReg_stream (r : Reg) (v : Nat) : (s.setReg r v).stream = s.stream := rfl
@[simp] theorem State.setReg_ovf (r : Reg) (v : Nat) : (s.setReg r v).ovf = s.ovf := rfl

@[simp] theorem State.memWrite_cfg (a v : Nat) : (s.memWrite a v).cfg = s.cfg := rfl
@[simp] theorem State.memWrite_regs (a v : Nat) : (s.memWrite a v).regs = s.regs := rfl
@[simp] theorem State.memWrite_pc (a v : Nat) : (s.memWrite a v).pc = s.pc := rfl
@[simp] theorem State.memWrite_run (a v : Nat) : (s.memWrite a v).run = s.run := rfl
@[simp] theorem State.memWrite_mem (a v : Nat) : (s.memWrite a v).mem = s.mem.write a v := rfl
@[simp] theorem State.memWrite_stream (a v : Nat) : (s.memWrite a v).stream = s.stream := rfl
@[simp] theorem State.memWrite_ovf (a v : Nat) : (s.memWrite a v).ovf = s.ovf := rfl

@[simp] theorem State.retire_cfg (n : Nat) (o : Option Bool) : (s.retire n o).cfg = s.cfg := rfl
@[simp] theorem State.retire_regs (n : Nat) (o : Option Bool) : (s.retire n o).regs = s.regs := rfl
@[simp] theorem State.retire_pc (n : Nat) (o : Option Bool) : (s.retire n o).pc = s.pc + n := rfl
@[simp] theorem State.retire_run (n : Nat) (o : Option Bool) : (s.retire n o).run = s.run := rfl
@[simp] theorem State.retire_mem (n : Nat) (o : Option Bool) : (s.retire n o).mem = s.mem := rfl
@[simp] theorem State.retire_stream (n : Nat) (o : Option Bool) : (s.retire n o).stream = s.stream := rfl
@[simp] theorem State.retire_ovf (n : Nat) (o : Option Bool) : (s.retire n o).ovf = o := rfl

@[simp] theorem State.raise_cfg (k : FaultKind) : (s.raise k).cfg = s.cfg := rfl
@[simp] theorem State.raise_regs (k : FaultKind) : (s.raise k).regs = s.regs := rfl
@[simp] theorem State.raise_pc (k : FaultKind) : (s.raise k).pc = s.pc := rfl
@[simp] theorem State.raise_run (k : FaultKind) : (s.raise k).run = .faulted k s.pc := rfl
@[simp] theorem State.raise_mem (k : FaultKind) : (s.raise k).mem = s.mem := rfl
@[simp] theorem State.raise_stream (k : FaultKind) : (s.raise k).stream = s.stream := rfl
@[simp] theorem State.raise_ovf (k : FaultKind) : (s.raise k).ovf = none := rfl

@[simp] theorem State.halt_cfg : (s.halt).cfg = s.cfg := rfl
@[simp] theorem State.halt_regs : (s.halt).regs = s.regs := rfl
@[simp] theorem State.halt_pc : (s.halt).pc = s.pc := rfl
@[simp] theorem State.halt_run : (s.halt).run = .halted := rfl
@[simp] theorem State.halt_mem : (s.halt).mem = s.mem := rfl
@[simp] theorem State.halt_stream : (s.halt).stream = s.stream := rfl
@[simp] theorem State.halt_ovf : (s.halt).ovf = none := rfl

@[simp] theorem State.idle_cfg : (s.idle).cfg = s.cfg := rfl
@[simp] theorem State.idle_regs : (s.idle).regs = s.regs := rfl
@[simp] theorem State.idle_pc : (s.idle).pc = s.pc := rfl
@[simp] theorem State.idle_run : (s.idle).run = s.run := rfl
@[simp] theorem State.idle_mem : (s.idle).mem = s.mem := rfl
@[simp] theorem State.idle_stream : (s.idle).stream = s.stream := rfl
@[simp] theorem State.idle_ovf : (s.idle).ovf = none := rfl

end Sys2Proof.Machine
end

