-- ==== Sys2Proof/Laws/Ops.lean ====
section
/-!
SUPPORT. What the operations over registers and memory do, each said once: a read after a write, and that every memory
operation keeps the canonical form.
-/

namespace Sys2Proof.Machine

/-! The register file (spec/10_state.md R21, R22). -/

@[simp] theorem RegFile.read_write_same (f : RegFile) (r : Reg) (v : Nat) : (f.write r v).read r = v := by
  cases r <;> rfl

theorem RegFile.read_write_ne (f : RegFile) {r q : Reg} (v : Nat) (h : q ≠ r) :
    (f.write r v).read q = f.read q := by
  cases r <;> cases q <;> first | rfl | exact absurd rfl h

theorem RegFile.fits_iff (w : Nat) (f : RegFile) : f.Fits w ↔ ∀ r, FitsWord w (f.read r) := by
  constructor
  · rintro ⟨h0, h1, h2, h3⟩ r
    cases r <;> assumption
  · exact fun h => ⟨h .r0, h .r1, h .r2, h .r3⟩

theorem RegFile.Fits.write {w : Nat} {f : RegFile} (hf : f.Fits w) (r : Reg) {v : Nat} (hv : FitsWord w v) :
    (f.write r v).Fits w := by
  rw [RegFile.fits_iff] at hf ⊢
  intro q
  by_cases h : q = r
  · subst h; simpa using hv
  · simpa [RegFile.read_write_ne f v h] using hf q

@[simp] theorem State.reg_setReg_same (s : State) (r : Reg) (v : Nat) : (s.setReg r v).reg r = v :=
  RegFile.read_write_same ..

theorem State.reg_setReg_ne (s : State) {r q : Reg} (v : Nat) (h : q ≠ r) : (s.setReg r v).reg q = s.reg q :=
  RegFile.read_write_ne _ _ h

@[simp] theorem State.moveReg_eq (s : State) (dst src : Reg) : s.moveReg dst src = s.setReg dst (s.reg src) := rfl
@[simp] theorem State.reg_retire (s : State) (n : Nat) (o : Option Bool) (r : Reg) : (s.retire n o).reg r = s.reg r := rfl
@[simp] theorem State.reg_memWrite (s : State) (a v : Nat) (r : Reg) : (s.memWrite a v).reg r = s.reg r := rfl
@[simp] theorem State.reg_raise (s : State) (k : FaultKind) (r : Reg) : (s.raise k).reg r = s.reg r := rfl
@[simp] theorem State.memRead_retire (s : State) (n : Nat) (o : Option Bool) (a : Nat) :
    (s.retire n o).memRead a = s.memRead a := rfl
@[simp] theorem State.memRead_setReg (s : State) (r : Reg) (v a : Nat) : (s.setReg r v).memRead a = s.memRead a := rfl
@[simp] theorem State.memRead_raise (s : State) (k : FaultKind) (a : Nat) : (s.raise k).memRead a = s.memRead a := rfl

/-! Memory (spec/20_memory.md R45, R46). -/

@[simp] theorem Memory.read_nil (a : Nat) : Memory.read [] a = unlistedWord := rfl

theorem Memory.read_cons (b x : Nat) (rest : Memory) (a : Nat) :
    Memory.read ((b, x) :: rest) a = if a = b then x else Memory.read rest a := rfl

theorem Memory.wf_nil : Memory.wf [] := ⟨List.Pairwise.nil, by simp⟩

theorem Memory.wf_tail {c : Nat × Nat} {m : Memory} (h : Memory.wf (c :: m)) : Memory.wf m :=
  ⟨h.1.of_cons, fun x hx => h.2 x (List.mem_cons_of_mem _ hx)⟩

/-- An address that stands below every listed one is not listed. -/
theorem Memory.read_of_lt {m : Memory} {a : Nat} (h : ∀ c ∈ m, a < c.1) : m.read a = unlistedWord := by
  induction m with
  | nil => rfl
  | cons c m ih =>
    have hc := h c List.mem_cons_self
    rw [Memory.read_cons, if_neg (Nat.ne_of_lt hc), ih fun d hd => h d (List.mem_cons_of_mem _ hd)]

theorem Memory.read_put_same {m : Memory} {a v : Nat} (h : ∀ c ∈ m, a < c.1) : (Memory.put a v m).read a = v := by
  unfold Memory.put
  split
  · next hv => rw [Memory.read_of_lt h, hv]
  · simp [Memory.read_cons]

theorem Memory.read_put_ne {m : Memory} {a b v : Nat} (h : b ≠ a) : (Memory.put a v m).read b = m.read b := by
  unfold Memory.put
  split
  · rfl
  · simp [Memory.read_cons, h]

theorem Memory.mem_put {m : Memory} {a v : Nat} {c : Nat × Nat} (h : c ∈ Memory.put a v m) : c = (a, v) ∨ c ∈ m := by
  unfold Memory.put at h
  split at h
  · exact .inr h
  · simpa using h

theorem Memory.put_wf {m : Memory} {a v : Nat} (hm : m.wf) (h : ∀ c ∈ m, a < c.1) : (Memory.put a v m).wf := by
  unfold Memory.put
  split
  · exact hm
  · next hv =>
    refine ⟨List.pairwise_cons.2 ⟨h, hm.1⟩, fun c hc => ?_⟩
    rcases List.mem_cons.1 hc with rfl | hc
    · exact hv
    · exact hm.2 c hc

/-- What a written memory lists: the written pair, or what it listed before. -/
theorem Memory.mem_write {m : Memory} {a v : Nat} {c : Nat × Nat} (h : c ∈ m.write a v) : c = (a, v) ∨ c ∈ m := by
  induction m with
  | nil => exact Memory.mem_put h
  | cons d m ih =>
    obtain ⟨b, x⟩ := d
    simp only [Memory.write] at h
    split at h
    · exact Memory.mem_put h
    · split at h
      · exact (Memory.mem_put h).imp_right (List.mem_cons_of_mem _)
      · rcases List.mem_cons.1 h with rfl | h
        · exact .inr List.mem_cons_self
        · exact (ih h).imp_right (List.mem_cons_of_mem _)

theorem Memory.lt_of_wf_cons {b x : Nat} {m : Memory} (h : Memory.wf ((b, x) :: m)) : ∀ c ∈ m, b < c.1 :=
  (List.pairwise_cons.1 h.1).1

/-- A write keeps the canonical form. -/
theorem Memory.write_wf {m : Memory} (hm : m.wf) (a v : Nat) : (m.write a v).wf := by
  induction m with
  | nil => exact Memory.put_wf Memory.wf_nil (by simp)
  | cons d m ih =>
    obtain ⟨b, x⟩ := d
    have hlt := Memory.lt_of_wf_cons hm
    simp only [Memory.write]
    split
    · next hab =>
      refine Memory.put_wf hm fun c hc => ?_
      rcases List.mem_cons.1 hc with rfl | hc
      · exact hab
      · exact Nat.lt_trans hab (hlt c hc)
    · next hab =>
      split
      · next hab' => exact Memory.put_wf (Memory.wf_tail hm) (by simpa [hab'] using hlt)
      · next hne =>
        have ih := ih (Memory.wf_tail hm)
        refine ⟨List.pairwise_cons.2 ⟨fun c hc => ?_, ih.1⟩, fun c hc => ?_⟩
        · rcases Memory.mem_write hc with rfl | hc
          · exact Nat.lt_of_le_of_ne (Nat.not_lt.1 hab) (Ne.symm hne)
          · exact hlt c hc
        · rcases List.mem_cons.1 hc with rfl | hc
          · exact hm.2 _ List.mem_cons_self
          · exact ih.2 c hc

/-- A read of the written address gives the written Word. -/
theorem Memory.read_write_same {m : Memory} (hm : m.wf) (a v : Nat) : (m.write a v).read a = v := by
  induction m with
  | nil => exact Memory.read_put_same (by simp)
  | cons d m ih =>
    obtain ⟨b, x⟩ := d
    have hlt := Memory.lt_of_wf_cons hm
    simp only [Memory.write]
    split
    · next hab =>
      refine Memory.read_put_same fun c hc => ?_
      rcases List.mem_cons.1 hc with rfl | hc
      · exact hab
      · exact Nat.lt_trans hab (hlt c hc)
    · split
      · next hab => exact Memory.read_put_same (by simpa [hab] using hlt)
      · next hne => rw [Memory.read_cons, if_neg hne, ih (Memory.wf_tail hm)]

/-- A write leaves every other address alone, whatever form the memory has. -/
theorem Memory.read_write_ne (m : Memory) {a b : Nat} (v : Nat) (h : b ≠ a) : (m.write a v).read b = m.read b := by
  induction m with
  | nil => exact Memory.read_put_ne h
  | cons d m ih =>
    obtain ⟨c, x⟩ := d
    simp only [Memory.write]
    split
    · exact Memory.read_put_ne h
    · split
      · next hac => rw [Memory.read_put_ne h, Memory.read_cons, if_neg (hac ▸ h)]
      · simp only [Memory.read_cons, ih]

/-- A write in range of a Word keeps a memory of Words. -/
theorem Memory.Fits.write {c : Config} {m : Memory} (hm : m.Fits c) {a v : Nat} (ha : a < c.memWords)
    (hv : FitsWord c.wordBits v) : (m.write a v).Fits c := by
  refine ⟨Memory.write_wf hm.1 a v, fun x hx => ?_⟩
  rcases Memory.mem_write hx with rfl | hx
  · exact ⟨ha, hv⟩
  · exact hm.2 x hx

/-- A memory of Words reads as Words. -/
theorem Memory.Fits.read {c : Config} {m : Memory} (hm : m.Fits c) (a : Nat) : FitsWord c.wordBits (m.read a) := by
  obtain ⟨-, h⟩ := hm
  induction m with
  | nil => exact Nat.two_pow_pos _
  | cons d m ih =>
    obtain ⟨b, x⟩ := d
    rw [Memory.read_cons]
    split
    · exact (h _ List.mem_cons_self).2
    · exact ih fun y hy => h y (List.mem_cons_of_mem _ hy)

/-- Every pair an image lists stands at or above its first address. -/
theorem Memory.le_of_mem_ofImage {base : Nat} {image : List Nat} {c : Nat × Nat} (h : c ∈ Memory.ofImage base image) :
    base ≤ c.1 := by
  induction image generalizing base with
  | nil => cases h
  | cons v rest ih =>
    rcases Memory.mem_put h with rfl | h
    · exact Nat.le_refl _
    · exact Nat.le_of_succ_le (ih h)

/-- An image as a memory has the canonical form. -/
theorem Memory.ofImage_wf (base : Nat) (image : List Nat) : (Memory.ofImage base image).wf := by
  induction image generalizing base with
  | nil => exact Memory.wf_nil
  | cons v rest ih => exact Memory.put_wf (ih _) fun c hc => Memory.le_of_mem_ofImage hc

/-- The memory of `State.reset` has the canonical form. -/
theorem State.reset_mem_wf : State.reset.mem.wf := Memory.wf_nil

end Sys2Proof.Machine
end

