-- ==== Sys2Proof/Laws/Operands.lean ====
section
/-!
SUPPORT. What the operand forms give: the ALU's view of a register, bit by bit and as a number, and the primitive gate.
-/

namespace Sys2Proof.Machine

/-- A register that holds a Word is the ALU operand's unsigned value. -/
theorem State.toNat_aluOperand {s : State} (hs : s.regs.Fits s.cfg.wordBits) (r : Reg) :
    (s.aluOperand r).toNat = s.reg r := by
  have h : s.reg r < 2 ^ s.cfg.wordBits := (RegFile.fits_iff _ _).1 hs r
  rw [State.aluOperand, BitVec.toNat_ofNat, Nat.mod_eq_of_lt h]

/-- Bit `j` of an ALU operand is bit `j` of its register. -/
theorem State.getLsbD_aluOperand (s : State) (r : Reg) {j : Nat} (hj : j < s.cfg.wordBits) :
    (s.aluOperand r).getLsbD j = (s.reg r).testBit j := by
  rw [State.aluOperand, BitVec.getLsbD_ofNat]
  simp [hj]

/-- The primitive gate, bit by bit (spec/42_logic.md R120). -/
theorem getLsbD_aluNand {w : Nat} (a b : Word w) {j : Nat} (hj : j < w) :
    (aluNand a b).getLsbD j = !(a.getLsbD j && b.getLsbD j) := by
  simp [aluNand, hj]

end Sys2Proof.Machine
end

