-- ==== Sys2Proof/Laws/PerInstr.lean ====
section
/-!
SUPPORT. Statements made per instruction. The family `EncodedForm` says of one instruction what its encoding looks like,
whatever its operands: an 8-bit value below the invalid classes, matched by the opcode map's row of its own operation,
and as many Words as the length rule gives it (spec/30_encoding.md R60, R67, R70, R74).
-/

namespace Sys2Proof.Laws.EncodedForm

/-- The operations whose row of the opcode map covers an 8-bit value. -/
def rowsOf (v : Nat) : List Opcode := (opcodeMap.filter fun r => r.covers (BitVec.ofNat 8 v)).map OpcodeRow.op

/-- The encoding of `i` has the form its row of the opcode map gives it. -/
def Statement (i : Instr) : Prop :=
  i.firstWord < 0xC0 ∧ rowsOf i.firstWord = [i.opcode] ∧ (encode i).length = i.length

theorem loadConst (rt : Reg) (lit : Nat) : Statement (.loadConst rt lit) := by
  have h : 0x00 + rt.index < 0xC0 ∧ rowsOf (0x00 + rt.index) = [.loadConst] := by cases rt <;> decide
  exact ⟨h.1, h.2, rfl⟩

theorem loadMem (rt : Reg) (addr : MemAddr) : Statement (.loadMem rt addr) := by
  have h : 0x04 + rt.index < 0xC0 ∧ rowsOf (0x04 + rt.index) = [.loadMem] := by cases rt <;> decide
  exact ⟨h.1, h.2, by cases addr <;> rfl⟩

theorem storeMem (rf : Reg) (addr : MemAddr) : Statement (.storeMem rf addr) := by
  have h : 0x08 + rf.index < 0xC0 ∧ rowsOf (0x08 + rf.index) = [.storeMem] := by cases rf <;> decide
  exact ⟨h.1, h.2, by cases addr <;> rfl⟩

theorem not (rr : Reg) : Statement (.not rr) := by
  cases rr <;> exact ⟨by decide, by decide, rfl⟩

theorem move (rt rf : Reg) : Statement (.move rt rf) := by
  cases rt <;> cases rf <;> exact ⟨by decide, by decide, rfl⟩

theorem nand (rt rf : Reg) : Statement (.nand rt rf) := by
  cases rt <;> cases rf <;> exact ⟨by decide, by decide, rfl⟩

theorem and (rt rf : Reg) : Statement (.and rt rf) := by
  cases rt <;> cases rf <;> exact ⟨by decide, by decide, rfl⟩

theorem nor (rt rf : Reg) : Statement (.nor rt rf) := by
  cases rt <;> cases rf <;> exact ⟨by decide, by decide, rfl⟩

theorem or (rt rf : Reg) : Statement (.or rt rf) := by
  cases rt <;> cases rf <;> exact ⟨by decide, by decide, rfl⟩

theorem xnor (rt rf : Reg) : Statement (.xnor rt rf) := by
  cases rt <;> cases rf <;> exact ⟨by decide, by decide, rfl⟩

theorem xor (rt rf : Reg) : Statement (.xor rt rf) := by
  cases rt <;> cases rf <;> exact ⟨by decide, by decide, rfl⟩

theorem add (rt rf : Reg) : Statement (.add rt rf) := by
  cases rt <;> cases rf <;> exact ⟨by decide, by decide, rfl⟩

theorem addOvf (rt rf : Reg) : Statement (.addOvf rt rf) := by
  cases rt <;> cases rf <;> exact ⟨by decide, by decide, rfl⟩

theorem sub (rt rf : Reg) : Statement (.sub rt rf) := by
  cases rt <;> cases rf <;> exact ⟨by decide, by decide, rfl⟩

theorem subOvf (rt rf : Reg) : Statement (.subOvf rt rf) := by
  cases rt <;> cases rf <;> exact ⟨by decide, by decide, rfl⟩

end Sys2Proof.Laws.EncodedForm
end

