-- ==== Sys2Proof/Laws/Step.lean ====
section
/-!
SUPPORT. What an instruction's meaning and a step can do, each said once as a case list, so that no later proof unfolds
them.
-/

namespace Sys2Proof.Machine

/-- A LoadMem in range loads; out of range it faults (spec/41_transfer.md R102). -/
theorem execLoadMem_cases (rt : Reg) (addr : MemAddr) (s : State) :
    (s.InRange (s.effectiveAddress rt addr) ∧ execLoadMem rt addr s =
      .next ((s.setReg rt (s.memRead (s.effectiveAddress rt addr))).retire addr.instrWords none)) ∨
    (¬ s.InRange (s.effectiveAddress rt addr) ∧ execLoadMem rt addr s = .next (s.raise .memoryOutOfRange)) := by
  unfold execLoadMem
  split
  · next h => exact .inl ⟨h, rfl⟩
  · next h => exact .inr ⟨h, rfl⟩

/-- A StoreMem in range stores; out of range it faults (spec/41_transfer.md R104). -/
theorem execStoreMem_cases (rf : Reg) (addr : MemAddr) (s : State) :
    (s.InRange (s.effectiveAddress rf addr) ∧ execStoreMem rf addr s =
      .next ((s.memWrite (s.effectiveAddress rf addr) (s.reg rf)).retire addr.instrWords none)) ∨
    (¬ s.InRange (s.effectiveAddress rf addr) ∧ execStoreMem rf addr s = .next (s.raise .memoryOutOfRange)) := by
  unfold execStoreMem
  split
  · next h => exact .inl ⟨h, rfl⟩
  · next h => exact .inr ⟨h, rfl⟩

/-- The Word an instruction writes to its destination register, given the whole state at the start of the step. -/
def resultWord (s : State) : Instr → Nat
  | .loadConst _ lit => lit
  | .loadMem rt addr => s.memRead (s.effectiveAddress rt addr)
  | .storeMem rf _ => s.reg rf
  | .not rr => (aluNot (s.aluOperand rr)).toNat
  | .move _ rf => s.reg rf
  | .nand rt rf => (aluNand (s.aluOperand rt) (s.aluOperand rf)).toNat
  | .and rt rf => (aluAnd (s.aluOperand rt) (s.aluOperand rf)).toNat
  | .nor rt rf => (aluNor (s.aluOperand rt) (s.aluOperand rf)).toNat
  | .or rt rf => (aluOr (s.aluOperand rt) (s.aluOperand rf)).toNat
  | .xnor rt rf => (aluXnor (s.aluOperand rt) (s.aluOperand rf)).toNat
  | .xor rt rf => (aluXor (s.aluOperand rt) (s.aluOperand rf)).toNat
  | .add rt rf => (aluAdd (s.aluOperand rt) (s.aluOperand rf)).1.toNat
  | .addOvf rt rf => (aluAdd (s.aluOperand rt) (s.aluOperand rf)).1.toNat
  | .sub rt rf => (aluSub (s.aluOperand rt) (s.aluOperand rf)).1.toNat
  | .subOvf rt rf => (aluSub (s.aluOperand rt) (s.aluOperand rf)).1.toNat

/-- The overflow output of a completed instruction (spec/10_state.md R27). -/
def overflowOutput (s : State) : Instr → Option Bool
  | .addOvf rt rf => some (aluAdd (s.aluOperand rt) (s.aluOperand rf)).2
  | .subOvf rt rf => some (aluSub (s.aluOperand rt) (s.aluOperand rf)).2
  | .loadConst _ _ | .loadMem _ _ | .storeMem _ _ | .not _ | .move _ _ | .nand _ _ | .and _ _ | .nor _ _
  | .or _ _ | .xnor _ _ | .xor _ _ | .add _ _ | .sub _ _ => none

/-- Everything a meaning can do, over all instructions: write its result to its destination register, or store it, and
move past its own Words; or, LoadMem and StoreMem alone and only out of range, fault. -/
theorem exec_cases (i : Instr) (s : State) :
    (∃ rt, destinationOf i = some rt ∧
      exec i s = .next ((s.setReg rt (resultWord s i)).retire i.length (overflowOutput s i)) ∧
      ∀ a, accessAddress s i = some a → s.InRange a) ∨
    (∃ rf addr, i = .storeMem rf addr ∧ s.InRange (s.effectiveAddress rf addr) ∧
      exec i s = .next ((s.memWrite (s.effectiveAddress rf addr) (s.reg rf)).retire i.length none)) ∨
    (∃ a, accessAddress s i = some a ∧ ¬ s.InRange a ∧ exec i s = .next (s.raise .memoryOutOfRange)) := by
  cases i with
  | loadMem rt addr =>
    rcases execLoadMem_cases rt addr s with ⟨hr, h⟩ | ⟨hr, h⟩
    · refine .inl ⟨rt, rfl, ?_, fun a ha => by simpa [accessAddress, ← Option.some.inj ha] using hr⟩
      cases addr <;> exact h
    · exact .inr (.inr ⟨_, rfl, hr, h⟩)
  | storeMem rf addr =>
    rcases execStoreMem_cases rf addr s with ⟨hr, h⟩ | ⟨hr, h⟩
    · refine .inr (.inl ⟨rf, addr, rfl, hr, ?_⟩)
      cases addr <;> exact h
    · exact .inr (.inr ⟨_, rfl, hr, h⟩)
  | _ => exact .inl ⟨_, rfl, rfl, fun a ha => nomatch ha⟩

/-- Everything a step can do. -/
theorem step_cases (s : State) :
    (¬ s.LegalInstance ∧ step s = .fault .illegalInstance) ∨
    (s.LegalInstance ∧ s.run ≠ .running ∧ step s = .next s.idle) ∨
    (s.LegalInstance ∧ s.run = .running ∧
      ((decode s.cfg.memAddrMode (s.stream.drop s.pc) = .error .endOfStream ∧ step s = .next s.halt) ∨
       (decode s.cfg.memAddrMode (s.stream.drop s.pc) = .error .invalidOpcode ∧
          step s = .next (s.raise .invalidOpcode)) ∨
       (decode s.cfg.memAddrMode (s.stream.drop s.pc) = .error .truncatedLiteral ∧
          step s = .next (s.raise .truncatedLiteral)) ∨
       ∃ i rest, decode s.cfg.memAddrMode (s.stream.drop s.pc) = .ok (i, rest) ∧ step s = exec i s)) := by
  by_cases hl : s.LegalInstance
  · refine .inr ?_
    simp only [step, if_pos hl, State.fetch]
    cases hr : s.run with
    | running =>
      refine .inr ⟨hl, rfl, ?_⟩
      rcases decode s.cfg.memAddrMode (s.stream.drop s.pc) with e | ⟨i, rest⟩
      · cases e <;> simp
      · simp
    | halted => exact .inl ⟨hl, by simp, rfl⟩
    | faulted k p => exact .inl ⟨hl, by simp, rfl⟩
  · exact .inl ⟨hl, if_neg hl⟩

/-- A run of no steps ends where it starts. -/
theorem core_run_zero (s : State) : core.run 0 s = .next s := rfl

/-- The run of any machine whose first step has a next state goes on from there. -/
theorem run_succ_of_next (M : Host.Core) {s t : M.State} (k : Nat) (h : M.step s = .next t) :
    M.run (k + 1) s = M.run k t := by
  simp only [Host.Core.run, h]

/-- A run of the core whose first step has a next state goes on from there. -/
theorem core_run_succ {s t : State} (k : Nat) (h : step s = .next t) : core.run (k + 1) s = core.run k t :=
  run_succ_of_next core k h

end Sys2Proof.Machine
end

