-- ==== Sys2Proof/Tests/Slice0.lean ====
section
/-!
SUPPORT. The model's own tests. Every expected result is one of spec/95_test_vectors.md, or a word written out from the
encodings of spec/30_encoding.md; then a witness for every statement that has hypotheses, at the values where its clauses
meet.
-/

namespace Sys2Proof.Tests

open Sys2Proof.Machine

/-! ## Small states -/

/-- The instance of the spec's vectors: `W = 8`, `MEM_WORDS = 16`, in either mode. -/
def vectors (m : MemAddrMode) : Config := { wordBits := 8, memWords := 16, pcBits := 32, memAddrMode := m }

/-- A 16-bit instance without memory (95_test_vectors.md P8). -/
def wide : Config := { wordBits := 16, memWords := 0, pcBits := 32, memAddrMode := .registerIndirect }

/-- An instance with more memory than Words can address (20_memory.md R50). -/
def large : Config := { wordBits := 8, memWords := 300, pcBits := 32, memAddrMode := .registerIndirect }

/-- A running state at `pc = 0`. -/
def at0 (c : Config) (regs : RegFile) (mem : Memory) (stream : List Nat) : State :=
  { State.reset with cfg := c, regs := regs, mem := mem, stream := stream }

/-- As `at0`, on the vectors' instance in this spec's mode. -/
def ri (regs : RegFile) (mem : Memory) (stream : List Nat) : State := at0 (vectors .registerIndirect) regs mem stream

/-- As `at0`, on the vectors' instance with `trailing_literal`. -/
def tl (regs : RegFile) (mem : Memory) (stream : List Nat) : State := at0 (vectors .trailingLiteral) regs mem stream

/-- The registers of the logic vectors: `0xCA` and `0xA6`. -/
def logicRegs : RegFile := ⟨0xCA, 0xA6, 0, 0⟩

/-- The next state of an outcome, if it is one. -/
def nextOf (o : Host.Outcome State Fault Refusal) : Option State :=
  match o with
  | .next s => some s
  | .fault _ => none
  | .refused _ => none

/-- What a test looks at after one step: the registers, `pc`, the run state and the overflow output. -/
def seen (s : State) : Option (RegFile × Nat × RunState × Option Bool) :=
  (nextOf (step s)).map fun t => (t.regs, t.pc, t.run, t.ovf)

/-- The memory after one step. -/
def seenMem (s : State) : Option Memory := (nextOf (step s)).map State.mem

/-! ## Well-formedness: one ill-formed term for each check -/

theorem test_wf_literal_too_wide : Instr.wellFormed (vectors .registerIndirect) (.loadConst .r2 0x100) = false := by decide
theorem test_wf_literal_widest : Instr.wellFormed (vectors .registerIndirect) (.loadConst .r2 0xFF) = true := by decide
theorem test_wf_load_address_too_wide :
    Instr.wellFormed (vectors .trailingLiteral) (.loadMem .r0 (.literal 0x100)) = false := by decide
theorem test_wf_store_address_too_wide :
    Instr.wellFormed (vectors .trailingLiteral) (.storeMem .r0 (.literal 0x100)) = false := by decide
theorem test_wf_literal_address_wrong_mode :
    Instr.wellFormed (vectors .registerIndirect) (.loadMem .r0 (.literal 5)) = false := by decide
theorem test_wf_register_address_wrong_mode :
    Instr.wellFormed (vectors .trailingLiteral) (.storeMem .r0 .viaRegister) = false := by decide

/-! ## Decoding: 95_test_vectors.md section 2.1, each word written in bits -/

theorem test_decode_loadConst : decodeWord .registerIndirect 0b0000_0011 = some (.loadConst .r3 0) := by decide
theorem test_decode_loadMem : decodeWord .registerIndirect 0b0000_0111 = some (.loadMem .r3 .viaRegister) := by decide
theorem test_decode_storeMem : decodeWord .registerIndirect 0b0000_1011 = some (.storeMem .r3 .viaRegister) := by decide
theorem test_decode_not : decodeWord .registerIndirect 0b0000_1100 = some (.not .r0) := by decide
theorem test_decode_move : decodeWord .registerIndirect 0b0001_1011 = some (.move .r2 .r3) := by decide
theorem test_decode_nand : decodeWord .registerIndirect 0b0010_1110 = some (.nand .r3 .r2) := by decide
theorem test_decode_and : decodeWord .registerIndirect 0b0011_1111 = some (.and .r3 .r3) := by decide
theorem test_decode_nor : decodeWord .registerIndirect 0b0100_0110 = some (.nor .r1 .r2) := by decide
theorem test_decode_or : decodeWord .registerIndirect 0b0101_1100 = some (.or .r3 .r0) := by decide
theorem test_decode_xnor : decodeWord .registerIndirect 0b0110_1001 = some (.xnor .r2 .r1) := by decide
theorem test_decode_xor : decodeWord .registerIndirect 0b0111_0010 = some (.xor .r0 .r2) := by decide
theorem test_decode_add : decodeWord .registerIndirect 0b1000_1011 = some (.add .r2 .r3) := by decide
theorem test_decode_addOvf : decodeWord .registerIndirect 0b1001_1101 = some (.addOvf .r3 .r1) := by decide
theorem test_decode_sub : decodeWord .registerIndirect 0b1010_0100 = some (.sub .r1 .r0) := by decide
theorem test_decode_subOvf : decodeWord .registerIndirect 0b1011_1111 = some (.subOvf .r3 .r3) := by decide
theorem test_decode_invalid :
    [0xC0, 0xCF, 0xD5, 0xE0, 0xFF, 0x0100].map (decodeWord .registerIndirect) = List.replicate 6 none := by decide
theorem test_decode_trailing_address :
    decode .trailingLiteral [0x0B, 0x10, 0x8B] = .ok (.storeMem .r3 (.literal 0x10), [0x8B]) := by rfl
theorem test_decode_register_address :
    decode .registerIndirect [0x0B, 0x10, 0x8B] = .ok (.storeMem .r3 .viaRegister, [0x10, 0x8B]) := by rfl
theorem test_encode_words :
    encode (.loadConst .r2 5) = [0x02, 0x05] ∧ encode (.loadMem .r1 (.literal 16)) = [0x05, 0x10] ∧
      encode (.sub .r0 .r1) = [0xA1] := by decide
theorem test_table_words :
    decodeTableWord 8 0x02 = some (.loadConst .r2 0) ∧ decodeTableWord 8 0xB4 = some (.subOvf .r1 .r0) ∧
      decodeTableWord 8 0xC3 = none := by decide

/-! ## One step of each instruction: 95_test_vectors.md sections 2.2 to 2.4 -/

/-- T1. -/
theorem test_loadConst : seen (ri ⟨0, 0, 0, 0⟩ [] [0x02, 0x05]) = some (⟨0, 0, 5, 0⟩, 2, .running, none) := by decide
/-- K8: a 16-bit literal, its high bit kept. -/
theorem test_loadConst_wide : seen (at0 wide ⟨0, 0, 0, 0⟩ [] [0x0000, 0x0100]) = some (⟨0x0100, 0, 0, 0⟩, 2, .running, none) := by
  decide
/-- T4: the highest address loads. -/
theorem test_loadMem : seen (ri ⟨0, 0, 15, 0⟩ [(15, 0x77)] [0x06]) = some (⟨0, 0, 0x77, 0⟩, 1, .running, none) := by decide
/-- T13. -/
theorem test_loadMem_literal :
    seen (tl ⟨0, 0, 0, 0⟩ [(5, 0x2A)] [0x05, 0x05]) = some (⟨0, 0x2A, 0, 0⟩, 2, .running, none) := by decide
/-- T8. -/
theorem test_storeMem : seenMem (ri ⟨5, 0, 0, 0⟩ [] [0x08]) = some [(5, 5)] := by decide
/-- T12. -/
theorem test_storeMem_literal : seenMem (tl ⟨0x2A, 0, 0, 0⟩ [] [0x08, 0x05]) = some [(5, 0x2A)] := by decide
/-- T10. -/
theorem test_move : seen (ri ⟨0, 0, 0, 0x7E⟩ [] [0x1B]) = some (⟨0, 0, 0x7E, 0x7E⟩, 1, .running, none) := by decide
theorem test_not : seen (ri logicRegs [] [0x0C]) = some (⟨0x35, 0xA6, 0, 0⟩, 1, .running, none) := by decide
theorem test_nand : seen (ri logicRegs [] [0x21]) = some (⟨0x7D, 0xA6, 0, 0⟩, 1, .running, none) := by decide
/-- The operands swapped: the result goes to RT. -/
theorem test_nand_swapped : seen (ri logicRegs [] [0x24]) = some (⟨0xCA, 0x7D, 0, 0⟩, 1, .running, none) := by decide
theorem test_and : seen (ri logicRegs [] [0x31]) = some (⟨0x82, 0xA6, 0, 0⟩, 1, .running, none) := by decide
theorem test_nor : seen (ri logicRegs [] [0x41]) = some (⟨0x11, 0xA6, 0, 0⟩, 1, .running, none) := by decide
theorem test_or : seen (ri logicRegs [] [0x51]) = some (⟨0xEE, 0xA6, 0, 0⟩, 1, .running, none) := by decide
theorem test_xnor : seen (ri logicRegs [] [0x61]) = some (⟨0x93, 0xA6, 0, 0⟩, 1, .running, none) := by decide
theorem test_xor : seen (ri logicRegs [] [0x71]) = some (⟨0x6C, 0xA6, 0, 0⟩, 1, .running, none) := by decide
/-- P8, step 3. -/
theorem test_xor_wide :
    seen (at0 wide ⟨0x1234, 0xFF00, 0, 0⟩ [] [0x0071]) = some (⟨0xED34, 0xFF00, 0, 0⟩, 1, .running, none) := by decide
/-- Wraps, and exposes no flag. -/
theorem test_add : seen (ri ⟨0xF0, 0x20, 0, 0⟩ [] [0x81]) = some (⟨0x10, 0x20, 0, 0⟩, 1, .running, none) := by decide
theorem test_addOvf : seen (ri ⟨0xF0, 0x20, 0, 0⟩ [] [0x91]) = some (⟨0x10, 0x20, 0, 0⟩, 1, .running, some true) := by decide
/-- Unsigned carry, not signed overflow. -/
theorem test_addOvf_not_signed :
    seen (ri ⟨0x7F, 0x01, 0, 0⟩ [] [0x91]) = some (⟨0x80, 0x01, 0, 0⟩, 1, .running, some false) := by decide
theorem test_sub : seen (ri ⟨0x05, 0x03, 0, 0⟩ [] [0xA1]) = some (⟨0x02, 0x03, 0, 0⟩, 1, .running, none) := by decide
theorem test_sub_wraps : seen (ri ⟨0x00, 0x01, 0, 0⟩ [] [0xA1]) = some (⟨0xFF, 0x01, 0, 0⟩, 1, .running, none) := by decide
theorem test_subOvf : seen (ri ⟨0xF0, 0x20, 0, 0⟩ [] [0xB4]) = some (⟨0xF0, 0x30, 0, 0⟩, 1, .running, some true) := by decide
/-- RT = RF. -/
theorem test_subOvf_same : seen (ri ⟨0, 0x80, 0, 0⟩ [] [0xB5]) = some (⟨0, 0, 0, 0⟩, 1, .running, some false) := by decide

/-! ## Faults, halting and the terminal states: 95_test_vectors.md sections 2.2 and 2.5 -/

/-- K1. -/
theorem test_empty_stream_halts : seen State.reset = some (⟨0, 0, 0, 0⟩, 0, .halted, none) := by decide
/-- K2. -/
theorem test_halted_stays :
    seen { ri ⟨1, 0, 0, 0⟩ [] [0x8B] with run := .halted, pc := 5 } = some (⟨1, 0, 0, 0⟩, 5, .halted, none) := by decide
/-- K3. -/
theorem test_faulted_stays :
    seen { ri ⟨1, 0, 0, 0⟩ [] [0x8B] with run := .faulted .invalidOpcode 2 } =
      some (⟨1, 0, 0, 0⟩, 0, .faulted .invalidOpcode 2, none) := by decide
/-- K5. -/
theorem test_invalid_opcode :
    seen (ri ⟨1, 2, 3, 4⟩ [] [0xC0]) = some (⟨1, 2, 3, 4⟩, 0, .faulted .invalidOpcode 0, none) := by decide
/-- K7: bit 8 of a 16-bit Word is not dropped. -/
theorem test_invalid_wide_word :
    seen (at0 wide ⟨0, 0, 0, 0⟩ [] [0x0100]) = some (⟨0, 0, 0, 0⟩, 0, .faulted .invalidOpcode 0, none) := by decide
/-- K6, T3. -/
theorem test_truncated_literal :
    seen (ri ⟨0, 0, 0, 0⟩ [] [0x03]) = some (⟨0, 0, 0, 0⟩, 0, .faulted .truncatedLiteral 0, none) := by decide
/-- T15. -/
theorem test_truncated_address :
    seen (tl ⟨0, 0, 0, 0⟩ [] [0x05]) = some (⟨0, 0, 0, 0⟩, 0, .faulted .truncatedLiteral 0, none) := by decide
/-- T5: an address equal to `MEM_WORDS` faults. -/
theorem test_load_out_of_range :
    seen (ri ⟨0, 0, 16, 0⟩ [] [0x06]) = some (⟨0, 0, 16, 0⟩, 0, .faulted .memoryOutOfRange 0, none) := by decide
/-- T14. -/
theorem test_load_literal_out_of_range :
    seen (tl ⟨0, 0, 0, 0⟩ [] [0x05, 0x10]) = some (⟨0, 0, 0, 0⟩, 0, .faulted .memoryOutOfRange 0, none) := by decide
/-- T9: memory unchanged. -/
theorem test_store_out_of_range : seenMem (ri ⟨0xC8, 0, 0, 0⟩ [(3, 1)] [0x08]) = some [(3, 1)] := by decide

/-- T7: storing what an unlisted cell reads as leaves the canonical form. -/
theorem test_store_zero_unlists : seenMem (ri ⟨0, 0, 0, 0⟩ [(0, 9), (4, 4)] [0x0B]) = some [(4, 4)] := by decide

/-- A launch is a reset of a loaded instance, and `State.reset` is the reference instance configured and reset. -/
theorem test_reset_is_a_reset_instance : (State.configure Config.reference).resetCore = State.reset := by decide
theorem test_placed_word_runs : seen (State.reset.withFetchWord 8 0x0C) = some (⟨0xFF, 0, 0, 0⟩, 1, .running, none) := by decide

/-! ## Witnesses: for each statement with hypotheses, a state and operands that meet them all -/

/-- LoadMem's two clauses where they meet: address 15 is in range, 16 is not, in both forms. -/
theorem witness_LoadMemLoadsTheAddressedWord :
    (ri ⟨15, 16, 0, 0⟩ [] []).effectiveAddress .r0 .viaRegister < 16 ∧
      ¬ (ri ⟨15, 16, 0, 0⟩ [] []).effectiveAddress .r1 .viaRegister < 16 ∧
      (tl ⟨0, 0, 0, 0⟩ [] []).effectiveAddress .r0 (.literal 15) < 16 ∧
      ¬ (tl ⟨0, 0, 0, 0⟩ [] []).effectiveAddress .r0 (.literal 16) < 16 := by decide

theorem witness_StoreMemStoresAtItsAddressOnly :
    (ri ⟨15, 16, 0, 0⟩ [(3, 1)] []).mem.wf ∧
      (ri ⟨15, 16, 0, 0⟩ [(3, 1)] []).effectiveAddress .r0 .viaRegister < 16 ∧
      ¬ (ri ⟨15, 16, 0, 0⟩ [(3, 1)] []).effectiveAddress .r1 .viaRegister < 16 := by decide

/-- E4: StoreMem R0 at 5, then LoadMem R3 with 5 in it. -/
theorem witness_LoadAfterStoreReturnsStoredWord :
    ∃ t, (ri ⟨5, 0, 0, 5⟩ [] []).mem.wf ∧ (ri ⟨5, 0, 0, 5⟩ [] []).effectiveAddress .r0 .viaRegister < 16 ∧
      exec (.storeMem .r0 .viaRegister) (ri ⟨5, 0, 0, 5⟩ [] []) = .next t ∧
      t.effectiveAddress .r3 .viaRegister = (ri ⟨5, 0, 0, 5⟩ [] []).effectiveAddress .r0 .viaRegister :=
  ⟨_, by decide, by decide, rfl, by decide⟩

theorem witness_ReadReturnsMostRecentWrite :
    Memory.wf [(3, 1)] ∧
      Memory.read ([(5, 1), (3, 2), (5, 7)].foldl (fun (acc : Memory) x => acc.write x.1 x.2) [(3, 1)]) 5 = 7 := by decide

/-- The lowest and the highest bit of an 8-bit Word. -/
theorem witness_DerivedGatesMeetTruthTable :
    0 < 8 ∧ 7 < 8 ∧ (aluNor 0xCA#8 0xA6#8).getLsbD 0 = true ∧ (aluNor 0xCA#8 0xA6#8).getLsbD 7 = false := by decide

theorem witness_NandIsComplementOfConjunction : aluNand 0xCA#8 0xA6#8 = 0x7D#8 ∧ 7 < 8 := by decide

theorem witness_AddOvfAndSubOvfExposeTheFlag : (ri ⟨0xFF, 0xFF, 0, 0⟩ [] []).regs.Fits 8 := by decide

theorem witness_SameRegisterIdioms : (ri logicRegs [] []).regs.Fits 8 := by decide

theorem witness_DecodeInvertsEncode :
    Instr.wellFormed (vectors .trailingLiteral) (.loadMem .r1 (.literal 0xFF)) = true ∧
      Instr.wellFormed (vectors .registerIndirect) (.loadMem .r1 .viaRegister) = true ∧
      Instr.wellFormed wide (.loadConst .r0 0xFFFF) = true := by decide

theorem witness_EncodeInvertsDecode :
    decode .trailingLiteral [0x05, 0x10, 0xFF] = .ok (.loadMem .r1 (.literal 0x10), [0xFF]) ∧
      (vectors .trailingLiteral).memAddrMode = .trailingLiteral ∧
      ∀ v ∈ [0x05, 0x10, 0xFF], FitsWord (vectors .trailingLiteral).wordBits v :=
  ⟨rfl, rfl, by decide⟩

/-- The last valid value and the first invalid one. -/
theorem witness_OpcodeMapCoversEachValueOnce :
    0xBF < 2 ^ 8 ∧ 0xBF < 0xC0 ∧ decodeWord .registerIndirect 0xBF = some (.subOvf .r3 .r3) ∧
      0xC0 < 2 ^ 8 ∧ ¬ 0xC0 < 0xC0 ∧ decodeWord .registerIndirect 0xC0 = none := by decide

/-- Not R3 (the last value of format U), Move R0, R0 (the first of format R) and the first invalid value. -/
theorem witness_DescriptorFollowsTheFields :
    Reg.r3.index = 0x0F / 4 % 4 ∧ Reg.r3.index = 0x0F % 4 ∧
      describe .registerIndirect 0x0F = some ⟨.not, some .r3, some .r3, false⟩ ∧
      Reg.r0.index = 0x10 / 4 % 4 ∧ Reg.r0.index = 0x10 % 4 ∧
      describe .registerIndirect 0x10 = some ⟨.move, some .r0, some .r0, false⟩ ∧
      Reg.r0.index = 0xC0 / 4 % 4 ∧ Reg.r0.index = 0xC0 % 4 ∧ describe .registerIndirect 0xC0 = none := by decide

/-- Each clause of the length rule, at the values where they meet: 0x03 and 0x04, 0x0B and 0x0C. -/
theorem witness_LengthIsToldByTheFirstWord :
    decode .registerIndirect [0x03, 9] = .ok (.loadConst .r3 9, []) ∧
      decode .registerIndirect [0x04, 9] = .ok (.loadMem .r0 .viaRegister, [9]) ∧
      decode .trailingLiteral [0x04, 9] = .ok (.loadMem .r0 (.literal 9), []) ∧
      decode .trailingLiteral [0x0B, 9] = .ok (.storeMem .r3 (.literal 9), []) ∧
      decode .trailingLiteral [0x0C, 9] = .ok (.not .r0, [9]) :=
  ⟨rfl, rfl, rfl, rfl, rfl⟩

/-- P1's first instruction. -/
theorem witness_StepRunsTheDecodedInstruction :
    (ri ⟨0, 0, 0, 0⟩ [] [0x02, 5]).LegalInstance ∧ (ri ⟨0, 0, 0, 0⟩ [] [0x02, 5]).run = .running ∧
      decode .registerIndirect ((ri ⟨0, 0, 0, 0⟩ [] [0x02, 5]).stream.drop 0) = .ok (.loadConst .r2 5, []) :=
  ⟨by decide, rfl, rfl⟩

theorem witness_StepIsTotal : State.reset.LegalInstance := by decide

/-- Each of the three ways to be no legal instance. -/
theorem witness_StepStopsOnIllegalInstance :
    (at0 { Config.reference with wordBits := 7 } ⟨0, 0, 0, 0⟩ [] []).cfg.wordBits < 8 ∧
      (at0 { Config.reference with pcBits := 7 } ⟨0, 0, 0, 0⟩ [] []).cfg.pcBits < 8 ∧
      2 ^ 8 ≤ (at0 { Config.reference with pcBits := 8 } ⟨0, 0, 0, 0⟩ [] (List.replicate (2 ^ 8) 0)).stream.length :=
  ⟨by decide, by decide, (List.length_replicate (n := 2 ^ 8) (a := 0)).ge⟩

/-- A state for each branch: terminal, end of stream, invalid, truncated, and an instruction that runs. -/
theorem witness_StepChecksInOrder :
    ({ ri ⟨0, 0, 0, 0⟩ [] [] with run := .halted } : State).run ≠ .running ∧
      (ri ⟨0, 0, 0, 0⟩ [] []).stream.length ≤ 0 ∧
      decodeWord .registerIndirect ((ri ⟨0, 0, 0, 0⟩ [] [0xC0]).stream.getD 0 0) = none ∧
      ((Instr.loadConst .r3 0).consumesLiteral = true ∧ (ri ⟨0, 0, 0, 0⟩ [] [0x03]).stream.length ≤ 0 + 1) ∧
      ¬ (ri ⟨0, 0, 0, 0⟩ [] [0x03, 7]).stream.length ≤ 0 + 1 ∧
      (ri ⟨0, 0, 0, 0⟩ [] [0x03, 7]).LegalInstance := by decide

/-- One element before the end of the stream, and at it. -/
theorem witness_RunningCoreHaltsExactlyAtStreamEnd :
    (ri ⟨0, 0, 0, 0⟩ [] [0x8B]).LegalInstance ∧ (ri ⟨0, 0, 0, 0⟩ [] [0x8B]).run = .running ∧
      ¬ (ri ⟨0, 0, 0, 0⟩ [] [0x8B]).stream.length ≤ (ri ⟨0, 0, 0, 0⟩ [] [0x8B]).pc ∧
      (ri ⟨0, 0, 0, 0⟩ [] []).stream.length ≤ (ri ⟨0, 0, 0, 0⟩ [] []).pc := by decide

theorem witness_InvalidOpcodeExactlyOnInvalidWords :
    (ri ⟨0, 0, 0, 0⟩ [] [0xC0]).LegalInstance ∧ (ri ⟨0, 0, 0, 0⟩ [] [0xC0]).run = .running ∧
      (ri ⟨0, 0, 0, 0⟩ [] [0xC0]).stream[0]? = some 0xC0 ∧ (ri ⟨0, 0, 0, 0⟩ [] [0xBF]).stream[0]? = some 0xBF := by decide

theorem witness_TruncatedLiteralExactlyAtLastWord :
    (tl ⟨0, 0, 0, 0⟩ [] [0x0B]).LegalInstance ∧ (tl ⟨0, 0, 0, 0⟩ [] [0x0B]).run = .running ∧
      (tl ⟨0, 0, 0, 0⟩ [] [0x0B]).stream[0]? = some 0x0B ∧ 0 + 1 = (tl ⟨0, 0, 0, 0⟩ [] [0x0B]).stream.length ∧
      0x0B / 4 = 2 ∧ 0x03 / 4 = 0 ∧ 0x04 / 4 = 1 := by decide

/-- An access at `MEM_WORDS`, and one just below. -/
theorem witness_MemoryFaultExactlyOutOfRange :
    accessAddress (ri ⟨15, 16, 0, 0⟩ [] []) (.storeMem .r1 .viaRegister) = some 16 ∧
      accessAddress (ri ⟨15, 16, 0, 0⟩ [] []) (.loadMem .r0 .viaRegister) = some 15 ∧ 16 ≤ (vectors .registerIndirect).memWords := by
  decide

/-- A step that faults and one that halts. -/
theorem witness_EndingStepWritesOnlyRunState :
    (∃ t, step (ri ⟨0, 0, 0, 0⟩ [] [0xC0]) = .next t ∧ t.run ≠ .running) ∧
      ∃ t, step (ri ⟨0, 0, 0, 0⟩ [] []) = .next t ∧ t.run ≠ .running :=
  ⟨⟨_, rfl, by decide⟩, _, rfl, by decide⟩

theorem witness_TerminalStepChangesNothing :
    ({ ri ⟨1, 0, 0, 0⟩ [] [] with run := .halted } : State).LegalInstance ∧
      ({ ri ⟨1, 0, 0, 0⟩ [] [] with run := .halted } : State).run ≠ .running := by decide

theorem witness_TerminalStatesLastUntilReset :
    ({ ri ⟨1, 0, 0, 0⟩ [] [0xC0] with run := .faulted .invalidOpcode 0 } : State).LegalInstance ∧
      ({ ri ⟨1, 0, 0, 0⟩ [] [0xC0] with run := .faulted .invalidOpcode 0 } : State).run ≠ .running ∧
      ({ ri ⟨1, 0, 0, 0⟩ [] [0xC0] with run := .faulted .invalidOpcode 0 } : State).ovf = none := by decide

theorem witness_RegistersChangeOnlyByTheirInstructions :
    ∃ t, step (ri logicRegs [] [0x0C]) = .next t ∧ t.reg .r0 ≠ (ri logicRegs [] [0x0C]).reg .r0 :=
  ⟨_, rfl, by decide⟩

theorem witness_MemoryChangesOnlyByStoreMem :
    ∃ t, step (ri ⟨5, 0, 0, 0⟩ [] [0x08]) = .next t ∧ t.memRead 5 ≠ (ri ⟨5, 0, 0, 0⟩ [] [0x08]).memRead 5 ∧
      (ri ⟨5, 0, 0, 0⟩ [] [0x08]).mem.wf :=
  ⟨_, rfl, by decide, by decide⟩

/-- Also for `PcMovesOnlyPastTheInstruction`: a step that moves `pc` by two, and one that leaves it. -/
theorem witness_StreamAndParametersNeverChange :
    (∃ t, step (ri ⟨0, 0, 0, 0⟩ [] [0x02, 5]) = .next t ∧ t.pc = 2 ∧ t.run = .running) ∧
      ∃ t, step (ri ⟨0, 0, 0, 0⟩ [] []) = .next t ∧ t.pc = 0 ∧ t.run ≠ .running :=
  ⟨⟨_, rfl, by decide, by decide⟩, _, rfl, by decide, by decide⟩

theorem witness_PcMovesOnlyPastTheInstruction :
    ∃ t, step (ri logicRegs [] [0x21]) = .next t ∧ t.pc = 1 ∧ t.run = .running :=
  ⟨_, rfl, by decide, by decide⟩

/-- A carry of true, and a borrow of false. -/
theorem witness_OverflowOutputOnlyFromOvfInstructions :
    (ri ⟨0xF0, 0x20, 0, 0⟩ [] [0x91]).regs.Fits 8 ∧
      (∃ t, step (ri ⟨0xF0, 0x20, 0, 0⟩ [] [0x91]) = .next t ∧ t.ovf = some true) ∧
      ∃ t, step (ri ⟨0x05, 0x05, 0, 0⟩ [] [0xB1]) = .next t ∧ t.ovf = some false :=
  ⟨by decide, ⟨_, rfl, by decide⟩, _, rfl, by decide⟩

/-- A sound state with a register, memory and a stream in it. -/
theorem witness_inv : (ri ⟨5, 0, 0, 0⟩ [(3, 0x2A)] [0x08, 0xC0]).Inv :=
  ⟨by decide, by decide, by decide, by decide, by decide, by decide, by decide⟩

theorem witness_SoundStatesStaySound :
    (ri ⟨5, 0, 0, 0⟩ [(3, 0x2A)] [0x08, 0xC0]).Inv ∧
      ∃ t, step (ri ⟨5, 0, 0, 0⟩ [(3, 0x2A)] [0x08, 0xC0]) = .next t :=
  ⟨witness_inv, _, rfl⟩

/-- A sound state of an instance with cells that no Word addresses, one of them holding a Word. -/
theorem witness_UnreachableCellsKeepTheirWord :
    (at0 large ⟨255, 0, 0, 0⟩ [(256, 7)] [0x08]).Inv ∧
      (∃ t, step (at0 large ⟨255, 0, 0, 0⟩ [(256, 7)] [0x08]) = .next t ∧ t.memRead 255 = 255) ∧ 2 ^ large.wordBits ≤ 256 :=
  ⟨⟨by decide, by decide, by decide, by decide, by decide, by decide, by decide⟩, ⟨_, rfl, by decide⟩, by decide⟩

theorem witness_EveryRunEndsWithinStreamLength : (ri ⟨0, 0, 0, 0⟩ [] [0x02, 0x05]).LegalInstance := by decide

/-- The premise of its last clause. -/
theorem witness_ResetSetsCoreAndKeepsMemory : (ri ⟨5, 0, 0, 0⟩ [(3, 0x2A)] [0x08, 0xC0]).Inv := witness_inv

/-- A four-cell memory. -/
theorem witness_LaunchedRunStartsSound :
    ({ Config.reference with memWords := 4 } : Config).Legal ∧
      LegalLaunch { Config.reference with memWords := 4 } [0x08] [0, 0xFF, 0, 7] := by decide

theorem witness_LaunchedMemoryHoldsTheImage :
    ([0, 0xFF, 0, 7] : List Nat).length = ({ Config.reference with memWords := 4 } : Config).memWords ∧
      ([0, 0xFF, 0, 7] : List Nat)[3]? = some 7 := by decide

/-- E5: the offending Word is read back at the recorded index, and past the end there is none. -/
theorem witness_InvalidWordIsReadAtTheFaultIndex :
    ∃ t, step (ri ⟨0, 0, 0, 0⟩ [] [0xC0]) = .next t ∧ (ri ⟨0, 0, 0, 0⟩ [] [0xC0]).run = .running ∧
      t.run = .faulted .invalidOpcode 0 ∧ t.inspect (.streamWord 0) = .word 0xC0 ∧ t.inspect (.streamWord 1) = .noSuchCell :=
  ⟨_, rfl, by decide, by decide, by decide, by decide⟩

theorem witness_PlacedWordIsRunNext :
    (State.reset.withFetchWord 8 0x02).LegalInstance ∧
      decode Config.reference.memAddrMode (tableWords 8 8 0x02) = .ok (.loadConst .r2 0, []) :=
  ⟨by decide, rfl⟩

end Sys2Proof.Tests
end

section
/-!
The control unit's statements (spec/40_control_unit.md).
-/

namespace Sys2Proof.Machine

/-- What a meaning does to the control unit's part of the state: it moves `pc` past its own Words and leaves the run state
(spec/40_control_unit.md R85), or it takes a memory fault (spec/60_exceptions.md R162). -/
theorem exec_advances_or_raises {i : Instr} {s t : State} (h : exec i s = .next t) :
    (t.pc = s.pc + i.length ∧ t.run = s.run) ∨ t = s.raise .memoryOutOfRange := by
  rcases exec_cases i s with ⟨rt, -, he, -⟩ | ⟨rf, addr, -, -, he⟩ | ⟨a, -, -, he⟩ <;>
    cases he.symm.trans h
  · exact .inl ⟨rfl, rfl⟩
  · exact .inl ⟨rfl, rfl⟩
  · exact .inr rfl

/-- Settles O37: every way a step can end the run leaves `pc`, and the one way it goes on is a completed instruction. -/
theorem pcMovesOnlyPastTheInstruction : Obligations.PcMovesOnlyPastTheInstruction := by
  intro s t h
  rcases step_cases s with ⟨-, hillegal⟩ | ⟨-, hstopped, hidle⟩ |
    ⟨-, hrun, ⟨-, hhalt⟩ | ⟨-, hraise⟩ | ⟨-, hraise⟩ | ⟨i, rest, hdecode, hexec⟩⟩
  · cases hillegal.symm.trans h
  · cases hidle.symm.trans h
    exact .inl ⟨rfl, hstopped⟩
  · cases hhalt.symm.trans h
    exact .inl ⟨rfl, by simp⟩
  · cases hraise.symm.trans h
    exact .inl ⟨rfl, by simp⟩
  · cases hraise.symm.trans h
    exact .inl ⟨rfl, by simp⟩
  · rcases exec_advances_or_raises (hexec.symm.trans h) with ⟨hpc, hkeeps⟩ | rfl
    · exact .inr ⟨i, rest, hrun, hdecode, hpc, hkeeps.trans hrun⟩
    · exact .inl ⟨rfl, by simp⟩

end Sys2Proof.Machine
end

section
/-!
The transfer instructions' statements (spec/41_transfer.md).
-/

namespace Sys2Proof.Machine

/-- An instruction that takes no trailing literal is decoded from its first Word alone (spec/30_encoding.md R70). -/
theorem decode_cons_of_no_literal {m : MemAddrMode} {w : Nat} {i : Instr} (hword : decodeWord m w = some i)
    (hlit : i.consumesLiteral = false) (rest : List Nat) : decode m (w :: rest) = .ok (i, rest) := by
  simp only [decode, hword, takeLiteral, hlit]

/-- `0001 TTFF` in both address modes (spec/41_transfer.md R106). -/
theorem decodeWord_move (m : MemAddrMode) (rt rf : Reg) :
    decodeWord m (0x10 + 4 * rt.index + rf.index) = some (.move rt rf) := by
  cases rt <;> cases rf <;> rfl

/-- Writing `rt` and moving past the instruction stays within the frame of an instruction that writes `rt`, whatever the
Word, the length and the overflow output. -/
theorem registerFrame_setReg_retire (s : State) (rt : Reg) (v n : Nat) (o : Option Bool) :
    RegisterFrame rt s ((s.setReg rt v).retire n o) :=
  ⟨fun _ hne => State.reg_setReg_ne s v hne, fun _ => by simp, by simp, by simp, by simp⟩

/-- A register move keeps the source's value, also where the source is the destination (spec/10_state.md R22). -/
theorem State.reg_moveReg_source (s : State) (dst src : Reg) : (s.moveReg dst src).reg src = s.reg src := by
  by_cases h : src = dst
  · subst h
    simp
  · exact State.reg_setReg_ne s _ h

/-- Settles O4: the next state is the register move followed by the retirement of one Word. -/
theorem moveCopiesRegister : Obligations.MoveCopiesRegister := by
  intro rt rf s
  have hexec : exec (.move rt rf) s = .next ((s.moveReg rt rf).retire 1 none) := rfl
  exact ⟨fun m => decode_cons_of_no_literal (decodeWord_move m rt rf) rfl,
    _, hexec, by simp, State.reg_moveReg_source s rt rf, rfl, rfl, registerFrame_setReg_retire s rt _ 1 none⟩

end Sys2Proof.Machine
end

section
/-!
The logic instructions' statements (spec/42_logic.md).
-/

namespace Sys2Proof.Machine

/-! ## The gates -/

/-- NOT is the complement of every bit (spec/42_logic.md R121). -/
theorem aluNot_eq_complement {w : Nat} (a : Word w) : aluNot a = ~~~a := by
  rw [aluNot, aluNand, BitVec.and_self]

@[simp] theorem aluNot_aluNot {w : Nat} (a : Word w) : aluNot (aluNot a) = a := by
  simp only [aluNot_eq_complement, BitVec.not_not]

theorem getLsbD_aluNot {w : Nat} (a : Word w) {j : Nat} (hj : j < w) : (aluNot a).getLsbD j = !a.getLsbD j := by
  rw [aluNot, getLsbD_aluNand a a hj, Bool.and_self]

/-- The complement of a W-bit Word is `MASK` minus the Word (spec/42_logic.md R120). -/
theorem toNat_aluNand {w : Nat} (a b : Word w) : (aluNand a b).toNat = wordMask w - (a.toNat &&& b.toNat) := by
  rw [aluNand, BitVec.toNat_not, BitVec.toNat_and, wordMask]

theorem aluNand_comm {w : Nat} (a b : Word w) : aluNand a b = aluNand b a := by
  rw [aluNand, aluNand, BitVec.and_comm]

theorem aluAnd_comm {w : Nat} (a b : Word w) : aluAnd a b = aluAnd b a := by
  rw [aluAnd, aluAnd, aluNand_comm]

theorem aluNor_comm {w : Nat} (a b : Word w) : aluNor a b = aluNor b a := by
  rw [aluNor, aluNor, aluNand_comm]

theorem aluOr_comm {w : Nat} (a b : Word w) : aluOr a b = aluOr b a := by
  rw [aluOr, aluOr, aluNor_comm]

theorem aluXnor_comm {w : Nat} (a b : Word w) : aluXnor a b = aluXnor b a := by
  rw [aluXnor, aluXnor, aluNand_comm a b, aluNand_comm (aluNot a)]

theorem aluXor_comm {w : Nat} (a b : Word w) : aluXor a b = aluXor b a := by
  rw [aluXor, aluXor, aluXnor_comm]

/-- Settles O7: the gate's bits are the law of the primitive gate, and its value is that of a complement. -/
theorem nandIsComplementOfConjunction : Obligations.NandIsComplementOfConjunction := by
  intro w a b
  refine ⟨fun j hj => ?_, toNat_aluNand a b⟩
  rw [getLsbD_aluNand a b hj]
  cases a.getLsbD j <;> cases b.getLsbD j <;> rfl

/-- Settles O9: AND, OR and XOR are built as a NOT, NAND follows because NOT is its own inverse, and each gate inherits
its commutativity from NAND's through its construction. -/
theorem logicFunctionsSatisfyTheirLaws : Obligations.LogicFunctionsSatisfyTheirLaws := by
  intro w a b
  have hnand : aluNand a b = aluNot (aluAnd a b) := (aluNot_aluNot (aluNand a b)).symm
  exact ⟨hnand, rfl, rfl, rfl, aluNot_aluNot a, aluNand_comm a b, aluAnd_comm a b, aluNor_comm a b,
    aluOr_comm a b, aluXnor_comm a b, aluXor_comm a b⟩

/-! ## The instructions -/

/-- `0000 11RR` in both address modes (spec/42_logic.md R128). -/
theorem decodeWord_not (m : MemAddrMode) (rr : Reg) : decodeWord m (0x0C + rr.index) = some (.not rr) := by
  cases rr <;> rfl

/-- Bit `j` of the Word that Not writes is the complement of bit `j` of its register. -/
theorem testBit_aluNot_aluOperand (s : State) (r : Reg) {j : Nat} (hj : j < s.cfg.wordBits) :
    (aluNot (s.aluOperand r)).toNat.testBit j = !(s.reg r).testBit j := by
  rw [BitVec.testBit_toNat, getLsbD_aluNot _ hj, State.getLsbD_aluOperand s r hj]

/-- Settles O10: the next state is the write of NOT's Word to the register followed by the retirement of one Word. -/
theorem notComplementsRegister : Obligations.NotComplementsRegister := by
  intro rr s
  have hexec : exec (.not rr) s = .next ((s.setReg rr (aluNot (s.aluOperand rr)).toNat).retire 1 none) := rfl
  refine ⟨fun m => decode_cons_of_no_literal (decodeWord_not m rr) rfl,
    _, hexec, fun j hj => ?_, ?_, rfl, rfl, registerFrame_setReg_retire s rr _ 1 none⟩
  · rw [State.reg_retire, State.reg_setReg_same, testBit_aluNot_aluOperand s rr hj]
  · rw [State.reg_retire, State.reg_setReg_same]
    exact BitVec.isLt _

end Sys2Proof.Machine
end

section
/-!
The arithmetic instructions' statements (spec/43_arithmetic.md).
-/

namespace Sys2Proof.Machine

/-! ## The adder and the subtractor -/

/-- The sum wraps modulo `2^W` (spec/43_arithmetic.md R140). -/
theorem toNat_aluAdd {w : Nat} (a b : Word w) : (aluAdd a b).1.toNat = (a.toNat + b.toNat) % 2 ^ w :=
  BitVec.toNat_ofNat _ _

/-- The carry, said as the spec does: the true sum exceeds the largest Word (spec/43_arithmetic.md R140). -/
theorem aluAdd_carry_iff {w : Nat} (a b : Word w) : (aluAdd a b).2 = true ↔ wordMask w < a.toNat + b.toNat := by
  have hpos : 0 < 2 ^ w := Nat.two_pow_pos w
  rw [aluAdd, carryOut, decide_eq_true_iff, wordMask]
  omega

/-- The difference is that of the integers, wrapped modulo `2^W` (spec/43_arithmetic.md R141). -/
theorem intCast_toNat_aluSub {w : Nat} (a b : Word w) :
    ((aluSub a b).1.toNat : Int) = ((a.toNat : Int) - (b.toNat : Int)) % 2 ^ w := by
  have hpos : (0 : Int) < 2 ^ w := by positivity
  rw [aluSub, BitVec.toNat_ofInt, Nat.cast_pow, Nat.cast_ofNat, Int.toNat_of_nonneg (Int.emod_nonneg _ hpos.ne')]

theorem toNat_aluSub_of_le {w : Nat} {a b : Word w} (h : b.toNat ≤ a.toNat) :
    (aluSub a b).1.toNat = a.toNat - b.toNat := by
  have ha : (a.toNat : Int) < 2 ^ w := mod_cast a.isLt
  have hwrap := intCast_toNat_aluSub a b
  rw [Int.emod_eq_of_lt (by omega) (by omega)] at hwrap
  omega

/-- Below zero the wrapped difference is one `2^W` above the true one (spec/43_arithmetic.md R141). -/
theorem toNat_aluSub_of_lt {w : Nat} {a b : Word w} (h : a.toNat < b.toNat) :
    (aluSub a b).1.toNat = a.toNat + 2 ^ w - b.toNat := by
  have hb : (b.toNat : Int) < 2 ^ w := mod_cast b.isLt
  have hwrap := intCast_toNat_aluSub a b
  rw [← Int.add_emod_right, Int.emod_eq_of_lt (by omega) (by omega)] at hwrap
  have hsum : ((aluSub a b).1.toNat : Int) + b.toNat = a.toNat + 2 ^ w := by omega
  exact Nat.eq_sub_of_add_eq (mod_cast hsum)

/-- Settles O12: the sum and the flags are the ALU's own laws, and the difference wraps exactly where there is a
borrow. -/
theorem adderAndSubtractorAreExact : Obligations.AdderAndSubtractorAreExact := by
  intro w a b
  refine ⟨toNat_aluAdd a b, rfl, aluAdd_carry_iff a b, ?_, rfl⟩
  split
  · next h => exact toNat_aluSub_of_le h
  · next h => exact toNat_aluSub_of_lt (Nat.lt_of_not_le h)

/-! ## The instructions -/

/-- `1000 TTFF` in both address modes (spec/43_arithmetic.md R144). -/
theorem decodeWord_add (m : MemAddrMode) (rt rf : Reg) :
    decodeWord m (0x80 + 4 * rt.index + rf.index) = some (.add rt rf) := by
  cases rt <;> cases rf <;> rfl

/-- `1010 TTFF` in both address modes (spec/43_arithmetic.md R146). -/
theorem decodeWord_sub (m : MemAddrMode) (rt rf : Reg) :
    decodeWord m (0xA0 + 4 * rt.index + rf.index) = some (.sub rt rf) := by
  cases rt <;> cases rf <;> rfl

/-- The ALU takes a register modulo `2^W`, whether or not the register holds a Word. -/
theorem State.toNat_aluOperand_eq_mod (s : State) (r : Reg) :
    (s.aluOperand r).toNat = s.reg r % 2 ^ s.cfg.wordBits :=
  BitVec.toNat_ofNat _ _

/-- Narrowing the operands does not change the wrapped sum. -/
theorem toNat_aluAdd_aluOperand (s : State) (r q : Reg) :
    (aluAdd (s.aluOperand r) (s.aluOperand q)).1.toNat = (s.reg r + s.reg q) % 2 ^ s.cfg.wordBits := by
  rw [toNat_aluAdd, State.toNat_aluOperand_eq_mod, State.toNat_aluOperand_eq_mod, ← Nat.add_mod]

/-- Narrowing the operands does not change the wrapped difference. -/
theorem intCast_toNat_aluSub_aluOperand (s : State) (r q : Reg) :
    ((aluSub (s.aluOperand r) (s.aluOperand q)).1.toNat : Int) =
      ((s.reg r : Int) - (s.reg q : Int)) % 2 ^ s.cfg.wordBits := by
  rw [intCast_toNat_aluSub, State.toNat_aluOperand_eq_mod, State.toNat_aluOperand_eq_mod]
  push_cast
  exact (Int.sub_emod _ _ _).symm

/-- Settles O13: each next state is the write of the wrapped result to RT followed by the retirement of one Word with no
overflow output. -/
theorem addAndSubWrapWithoutFlag : Obligations.AddAndSubWrapWithoutFlag := by
  intro rt rf s
  have hadd : exec (.add rt rf) s =
      .next ((s.setReg rt (aluAdd (s.aluOperand rt) (s.aluOperand rf)).1.toNat).retire 1 none) := rfl
  have hsub : exec (.sub rt rf) s =
      .next ((s.setReg rt (aluSub (s.aluOperand rt) (s.aluOperand rf)).1.toNat).retire 1 none) := rfl
  refine ⟨fun m => decode_cons_of_no_literal (decodeWord_add m rt rf) rfl,
    fun m => decode_cons_of_no_literal (decodeWord_sub m rt rf) rfl,
    ⟨_, hadd, ?_, rfl, rfl, registerFrame_setReg_retire s rt _ 1 none⟩,
    ⟨_, hsub, ?_, rfl, rfl, registerFrame_setReg_retire s rt _ 1 none⟩⟩
  · rw [State.reg_retire, State.reg_setReg_same, toNat_aluAdd_aluOperand]
  · rw [State.reg_retire, State.reg_setReg_same, intCast_toNat_aluSub_aluOperand]

end Sys2Proof.Machine
end

section
/-!
The statements about the end of a run (spec/60_exceptions.md).
-/

namespace Sys2Proof.Machine

theorem takeLiteral_ne_endOfStream (i : Instr) (following : List Nat) :
    takeLiteral i following ≠ .error .endOfStream := by
  unfold takeLiteral
  split <;> simp

/-- The decoder finds the end of the stream exactly where no Word is left (spec/40_control_unit.md R82). -/
theorem decode_eq_endOfStream_iff (m : MemAddrMode) (ws : List Nat) :
    decode m ws = .error .endOfStream ↔ ws = [] := by
  cases ws with
  | nil => simp [decode]
  | cons w rest =>
    cases hword : decodeWord m w with
    | none => simp [decode, hword]
    | some i => simpa [decode, hword] using takeLiteral_ne_endOfStream i rest

/-- A step of a running core that finds no Word left halts (spec/40_control_unit.md R82). -/
theorem step_eq_halt_of_length_le_pc {s : State} (hlegal : s.LegalInstance) (hrun : s.run = .running)
    (hend : s.stream.length ≤ s.pc) : step s = .next s.halt := by
  have hdecode : decode s.cfg.memAddrMode (s.stream.drop s.pc) = .error .endOfStream :=
    (decode_eq_endOfStream_iff _ _).2 (List.drop_eq_nil_iff.2 hend)
  simp only [step, if_pos hlegal, State.fetch, hrun, hdecode]

/-- A running core halts in no other place: an instruction keeps it running or faults, and so does a rejected Word. -/
theorem length_le_pc_of_step_halted {s t : State} (hrun : s.run = .running) (hstep : step s = .next t)
    (hhalted : t.run = .halted) : s.stream.length ≤ s.pc := by
  rcases step_cases s with ⟨-, hillegal⟩ | ⟨-, hstopped, -⟩ |
    ⟨-, -, ⟨hdecode, -⟩ | ⟨-, hraise⟩ | ⟨-, hraise⟩ | ⟨i, rest, -, hexec⟩⟩
  · cases hillegal.symm.trans hstep
  · exact absurd hrun hstopped
  · exact List.drop_eq_nil_iff.1 ((decode_eq_endOfStream_iff _ _).1 hdecode)
  · cases hraise.symm.trans hstep
    cases hhalted
  · cases hraise.symm.trans hstep
    cases hhalted
  · rcases exec_advances_or_raises (hexec.symm.trans hstep) with ⟨-, hkeeps⟩ | rfl
    · cases (hkeeps.trans hrun).symm.trans hhalted
    · cases hhalted

/-- Settles O27: no Word left is the one way to a halt, and what the halt leaves is the state with its run state
`Halted`. -/
theorem runningCoreHaltsExactlyAtStreamEnd : Obligations.RunningCoreHaltsExactlyAtStreamEnd := by
  intro s hlegal hrun
  exact ⟨⟨fun hstep => length_le_pc_of_step_halted hrun hstep rfl, step_eq_halt_of_length_le_pc hlegal hrun⟩,
    fun _ => length_le_pc_of_step_halted hrun⟩

end Sys2Proof.Machine
end

section
/-!
The decoder's facts: what a Word and a list of Words decode to, said once for every instruction (spec/30_encoding.md).
-/

namespace Sys2Proof

open Sys2Proof.Machine

/-! ## Register fields -/

theorem Reg.index_lt (r : Reg) : r.index < 4 := by
  cases r <;> decide

theorem Reg.ofField_index (r : Reg) : Reg.ofField (BitVec.ofNat 2 r.index) = r := by
  cases r <;> rfl

theorem Reg.index_injective : Function.Injective Reg.index :=
  Function.LeftInverse.injective (g := fun n => Reg.ofField (BitVec.ofNat 2 n)) Reg.ofField_index

/-- The field value of the register a field names (spec/30_encoding.md R66). -/
@[simp] theorem Reg.index_ofField (f : BitVec 2) : (Reg.ofField f).index = f.toNat := by
  revert f
  decide

/-- An 8-bit value is made of its class and its two fields (spec/30_encoding.md R61). -/
theorem toNat_eq_fields (b : BitVec 8) :
    b.toNat = 16 * (classField b).toNat + 4 * (upperField b).toNat + (lowerField b).toNat := by
  have hlt := b.isLt
  simp only [classField, upperField, lowerField, BitVec.extractLsb'_toNat, Nat.shiftRight_eq_div_pow]
  omega

/-! ## One Word -/

/-- What the decoder of mode `m` makes of an instruction's own Word: the address operand has the form of the mode, and
no literal is filled in (spec/30_encoding.md R62, R71). -/
def Instr.blank (m : MemAddrMode) : Instr → Instr
  | .loadConst rt _ => .loadConst rt 0
  | .loadMem rt _ => .loadMem rt m.addrForm
  | .storeMem rf _ => .storeMem rf m.addrForm
  | i => i

/-- An instruction's own Word decodes to the instruction without its literal, in either mode. -/
theorem decodeWord_firstWord (m : MemAddrMode) (i : Instr) : decodeWord m i.firstWord = some (i.blank m) := by
  cases i with
  | loadConst rt lit =>
    change decodeWord m (0x00 + rt.index) = some (.loadConst rt 0)
    cases rt <;> rfl
  | loadMem rt addr =>
    change decodeWord m (0x04 + rt.index) = some (.loadMem rt m.addrForm)
    cases rt <;> rfl
  | storeMem rf addr =>
    change decodeWord m (0x08 + rf.index) = some (.storeMem rf m.addrForm)
    cases rf <;> rfl
  | not rr => cases rr <;> rfl
  | move rt rf | nand rt rf | and rt rf | nor rt rf | or rt rf | xnor rt rf | xor rt rf | add rt rf | addOvf rt rf
  | sub rt rf | subOvf rt rf => cases rt <;> cases rf <;> rfl

theorem firstWord_of_decodeFormatU (m : MemAddrMode) (b : BitVec 8) :
    (decodeFormatU m b).firstWord = 4 * (upperField b).toNat + (lowerField b).toNat ∧
      (decodeFormatU m b).blank m = decodeFormatU m b := by
  have hlt := (upperField b).isLt
  unfold decodeFormatU
  split
  all_goals
    refine ⟨?_, rfl⟩
    simp only [imp_false, Instr.firstWord, Reg.index_ofField] at *
    omega

/-- The valid 8-bit values are those of classes `0000` to `1011`, and each is the own Word of what it decodes to
(spec/30_encoding.md R67, R71). -/
theorem decodeByte_cases (m : MemAddrMode) (b : BitVec 8) :
    (∃ i, decodeByte m b = some i ∧ i.firstWord = b.toNat ∧ i.blank m = i) ∨
      (decodeByte m b = none ∧ 0xC0 ≤ b.toNat) := by
  have hfields := toNat_eq_fields b
  unfold decodeByte
  split
  case h_1 =>
    obtain ⟨hword, hblank⟩ := firstWord_of_decodeFormatU m b
    exact .inl ⟨_, rfl, by omega, hblank⟩
  case h_13 =>
    refine .inr ⟨rfl, ?_⟩
    simp only [imp_false] at *
    omega
  all_goals exact .inl ⟨_, rfl, by simp only [Instr.firstWord, Reg.index_ofField]; omega, rfl⟩

/-- An encoding has the form its row of the opcode map gives it, for every instruction. -/
theorem encodedForm (i : Instr) : Laws.EncodedForm.Statement i := by
  cases i with
  | loadConst rt lit => exact Laws.EncodedForm.loadConst rt lit
  | loadMem rt addr => exact Laws.EncodedForm.loadMem rt addr
  | storeMem rf addr => exact Laws.EncodedForm.storeMem rf addr
  | not rr => exact Laws.EncodedForm.not rr
  | move rt rf => exact Laws.EncodedForm.move rt rf
  | nand rt rf => exact Laws.EncodedForm.nand rt rf
  | and rt rf => exact Laws.EncodedForm.and rt rf
  | nor rt rf => exact Laws.EncodedForm.nor rt rf
  | or rt rf => exact Laws.EncodedForm.or rt rf
  | xnor rt rf => exact Laws.EncodedForm.xnor rt rf
  | xor rt rf => exact Laws.EncodedForm.xor rt rf
  | add rt rf => exact Laws.EncodedForm.add rt rf
  | addOvf rt rf => exact Laws.EncodedForm.addOvf rt rf
  | sub rt rf => exact Laws.EncodedForm.sub rt rf
  | subOvf rt rf => exact Laws.EncodedForm.subOvf rt rf

theorem firstWord_lt (i : Instr) : i.firstWord < 0xC0 := (encodedForm i).1

theorem encode_length (i : Instr) : (encode i).length = i.length := (encodedForm i).2.2

/-- What a Word of any width decodes to: below `0xC0` the one instruction it is the own Word of, from there on nothing
(spec/30_encoding.md R67, R68). -/
theorem decodeWord_cases (m : MemAddrMode) (w : Nat) :
    (w < 0xC0 ∧ ∃ i, decodeWord m w = some i ∧ i.firstWord = w ∧ i.blank m = i) ∨
      (0xC0 ≤ w ∧ decodeWord m w = none) := by
  unfold decodeWord
  split
  · next hw =>
    have hval : (BitVec.ofNat 8 w).toNat = w := BitVec.toNat_ofNat w 8 ▸ Nat.mod_eq_of_lt hw
    rcases decodeByte_cases m (BitVec.ofNat 8 w) with ⟨i, hi, hword, hblank⟩ | ⟨hnone, hge⟩
    · have hfirst := hword.trans hval
      exact .inl ⟨hfirst ▸ firstWord_lt i, i, hi, hfirst, hblank⟩
    · exact .inr ⟨hval ▸ hge, hnone⟩
  · next hw => exact .inr ⟨by omega, rfl⟩

theorem decodeWord_eq_none_iff (m : MemAddrMode) (w : Nat) : decodeWord m w = none ↔ 0xC0 ≤ w := by
  rcases decodeWord_cases m w with ⟨hlt, i, hi, -, -⟩ | ⟨hge, hnone⟩
  · simp [hi, hlt]
  · simp [hnone, hge]

theorem firstWord_of_decodeWord {m : MemAddrMode} {w : Nat} {i : Instr} (h : decodeWord m w = some i) :
    i.firstWord = w := by
  rcases decodeWord_cases m w with ⟨-, j, hj, hword, -⟩ | ⟨-, hnone⟩
  · cases hj.symm.trans h
    exact hword
  · cases hnone.symm.trans h

theorem blank_of_decodeWord {m : MemAddrMode} {w : Nat} {i : Instr} (h : decodeWord m w = some i) : i.blank m = i := by
  rcases decodeWord_cases m w with ⟨-, j, hj, -, hblank⟩ | ⟨-, hnone⟩
  · cases hj.symm.trans h
    exact hblank
  · cases hnone.symm.trans h

/-- The bits 7 to 2 of a Word that takes a trailing literal, in each mode (spec/30_encoding.md R70). -/
abbrev WordTakesLiteral (m : MemAddrMode) (w : Nat) : Prop :=
  w / 4 = 0 ∨ (m = .trailingLiteral ∧ (w / 4 = 1 ∨ w / 4 = 2))

/-- Whether an instruction takes a literal is told by its own Word (spec/30_encoding.md R70). -/
theorem consumesLiteral_blank_iff (m : MemAddrMode) (i : Instr) :
    (i.blank m).consumesLiteral = true ↔ WordTakesLiteral m i.firstWord := by
  cases i with
  | loadConst r x | not r | loadMem r x | storeMem r x =>
    have := r.index_lt
    cases m <;>
      simp [WordTakesLiteral, Instr.blank, MemAddrMode.addrForm, Instr.consumesLiteral, Instr.firstWord] <;> omega
  | _ => cases m <;> simp [WordTakesLiteral, Instr.blank, Instr.consumesLiteral, Instr.firstWord] <;> omega

theorem consumesLiteral_iff_of_decodeWord {m : MemAddrMode} {w : Nat} {i : Instr} (h : decodeWord m w = some i) :
    i.consumesLiteral = true ↔ WordTakesLiteral m w := by
  have hiff := consumesLiteral_blank_iff m i
  rwa [blank_of_decodeWord h, firstWord_of_decodeWord h] at hiff

/-! ## The literal -/

theorem Instr.firstWord_withLiteral (lit : Nat) (i : Instr) : (i.withLiteral lit).firstWord = i.firstWord := by
  cases i <;> rfl

theorem Instr.consumesLiteral_withLiteral (lit : Nat) (i : Instr) :
    (i.withLiteral lit).consumesLiteral = i.consumesLiteral := by
  cases i with
  | loadMem _ addr | storeMem _ addr => cases addr <;> rfl
  | _ => rfl

theorem Instr.withLiteral_of_no_literal {i : Instr} (h : i.consumesLiteral = false) (lit : Nat) :
    i.withLiteral lit = i := by
  cases i with
  | loadConst _ _ => cases h
  | loadMem _ addr | storeMem _ addr =>
    cases addr with
    | viaRegister => rfl
    | literal a => cases h
  | _ => rfl

theorem Instr.literalWords_of_no_literal {i : Instr} (h : i.consumesLiteral = false) : i.literalWords = [] := by
  cases i with
  | loadConst _ _ => cases h
  | loadMem _ addr | storeMem _ addr =>
    cases addr with
    | viaRegister => rfl
    | literal a => cases h
  | _ => rfl

theorem Instr.literalWords_withLiteral {i : Instr} (h : i.consumesLiteral = true) (lit : Nat) :
    (i.withLiteral lit).literalWords = [lit] := by
  cases i with
  | loadConst _ _ => rfl
  | loadMem _ addr | storeMem _ addr =>
    cases addr with
    | viaRegister => cases h
    | literal a => rfl
  | _ => cases h

theorem takeLiteral_of_no_literal {i : Instr} (h : i.consumesLiteral = false) (following : List Nat) :
    takeLiteral i following = .ok (i, following) := by
  simp only [takeLiteral, h]

theorem takeLiteral_nil {i : Instr} (h : i.consumesLiteral = true) : takeLiteral i [] = .error .truncatedLiteral := by
  simp only [takeLiteral, h]

theorem takeLiteral_cons {i : Instr} (h : i.consumesLiteral = true) (lit : Nat) (rest : List Nat) :
    takeLiteral i (lit :: rest) = .ok (i.withLiteral lit, rest) := by
  simp only [takeLiteral, h]

/-! ## A list of Words -/

theorem decode_cons_of_decodeWord {m : MemAddrMode} {w : Nat} {i : Instr} (h : decodeWord m w = some i)
    (following : List Nat) : decode m (w :: following) = takeLiteral i following := by
  simp only [decode, h]

/-- Everything the decoder can make of a list that is not empty (spec/60_exceptions.md R166). -/
theorem decode_cons_cases (m : MemAddrMode) (w : Nat) (following : List Nat) :
    (0xC0 ≤ w ∧ decode m (w :: following) = .error .invalidOpcode) ∨
      ∃ i, decodeWord m w = some i ∧
        ((i.consumesLiteral = false ∧ decode m (w :: following) = .ok (i, following)) ∨
         (i.consumesLiteral = true ∧ following = [] ∧ decode m (w :: following) = .error .truncatedLiteral) ∨
         (i.consumesLiteral = true ∧ ∃ lit rest, following = lit :: rest ∧
            decode m (w :: following) = .ok (i.withLiteral lit, rest))) := by
  rcases decodeWord_cases m w with ⟨-, i, hi, -, -⟩ | ⟨hge, hnone⟩
  · refine .inr ⟨i, hi, ?_⟩
    rw [decode_cons_of_decodeWord hi]
    cases hlit : i.consumesLiteral with
    | false => exact .inl ⟨rfl, takeLiteral_of_no_literal hlit following⟩
    | true =>
      cases following with
      | nil => exact .inr (.inl ⟨rfl, rfl, takeLiteral_nil hlit⟩)
      | cons lit rest => exact .inr (.inr ⟨rfl, lit, rest, rfl, takeLiteral_cons hlit lit rest⟩)
  · exact .inl ⟨hge, by simp only [decode, hnone]⟩

/-- A list that decodes starts with a valid Word, and with its literal if the Word takes one. -/
theorem decode_ok_cases {m : MemAddrMode} {ws : List Nat} {i : Instr} {rest : List Nat}
    (h : decode m ws = .ok (i, rest)) :
    ∃ w j, decodeWord m w = some j ∧
      ((j.consumesLiteral = false ∧ i = j ∧ ws = w :: rest) ∨
       (j.consumesLiteral = true ∧ ∃ lit, i = j.withLiteral lit ∧ ws = w :: lit :: rest)) := by
  cases ws with
  | nil => cases h
  | cons w following =>
    rcases decode_cons_cases m w following with
      ⟨-, herr⟩ | ⟨j, hj, ⟨hlit, hok⟩ | ⟨-, -, herr⟩ | ⟨hlit, lit, tail, rfl, hok⟩⟩
    · cases herr.symm.trans h
    · cases hok.symm.trans h
      exact ⟨w, i, hj, .inl ⟨hlit, rfl, rfl⟩⟩
    · cases herr.symm.trans h
    · cases hok.symm.trans h
      exact ⟨w, j, hj, .inr ⟨hlit, lit, rfl, rfl⟩⟩

theorem decode_eq_invalidOpcode_iff (m : MemAddrMode) (w : Nat) (following : List Nat) :
    decode m (w :: following) = .error .invalidOpcode ↔ 0xC0 ≤ w := by
  constructor
  · intro h
    rcases decode_cons_cases m w following with
      ⟨hge, -⟩ | ⟨i, -, ⟨-, hok⟩ | ⟨-, -, htrunc⟩ | ⟨-, lit, rest, -, hok⟩⟩
    · exact hge
    · cases hok.symm.trans h
    · cases htrunc.symm.trans h
    · cases hok.symm.trans h
  · intro hge
    simp only [decode, (decodeWord_eq_none_iff m w).2 hge]

/-- The decoder reports a missing literal exactly for a last Word that takes one (spec/40_control_unit.md R84). -/
theorem decode_eq_truncatedLiteral_iff (m : MemAddrMode) (w : Nat) (following : List Nat) :
    decode m (w :: following) = .error .truncatedLiteral ↔ following = [] ∧ WordTakesLiteral m w := by
  rcases decode_cons_cases m w following with
    ⟨hge, herr⟩ | ⟨i, hi, ⟨hlit, hok⟩ | ⟨hlit, rfl, herr⟩ | ⟨hlit, lit, rest, rfl, hok⟩⟩
  · have hword : ¬ WordTakesLiteral m w := by unfold WordTakesLiteral; omega
    simp [herr, hword]
  · have hword : ¬ WordTakesLiteral m w := by simp [← consumesLiteral_iff_of_decodeWord hi, hlit]
    simp [hok, hword]
  · simp [herr, (consumesLiteral_iff_of_decodeWord hi).1 hlit]
  · simp [hok]

/-- Words that follow do not change what a list decodes to. -/
theorem decode_append_of_ok {m : MemAddrMode} {ws : List Nat} {i : Instr} {rest : List Nat}
    (h : decode m ws = .ok (i, rest)) (more : List Nat) : decode m (ws ++ more) = .ok (i, rest ++ more) := by
  obtain ⟨w, j, hj, ⟨hlit, rfl, rfl⟩ | ⟨hlit, lit, rfl, rfl⟩⟩ := decode_ok_cases h
  · exact decode_cons_of_no_literal hj hlit _
  · exact (decode_cons_of_decodeWord hj _).trans (takeLiteral_cons hlit lit _)

/-- What decodes is an encoding and the Words after it (spec/30_encoding.md R70). -/
theorem eq_encode_append_of_decode {m : MemAddrMode} {ws : List Nat} {i : Instr} {rest : List Nat}
    (h : decode m ws = .ok (i, rest)) : ws = encode i ++ rest := by
  obtain ⟨w, j, hj, ⟨hlit, rfl, rfl⟩ | ⟨hlit, lit, rfl, rfl⟩⟩ := decode_ok_cases h
  · rw [encode, Instr.literalWords_of_no_literal hlit, firstWord_of_decodeWord hj, List.singleton_append]
  · rw [encode, Instr.literalWords_withLiteral hlit, Instr.firstWord_withLiteral, firstWord_of_decodeWord hj]
    rfl

/-- A decoded instruction and the Words after it share out the Words it was decoded from. -/
theorem length_eq_of_decode {m : MemAddrMode} {ws : List Nat} {i : Instr} {rest : List Nat}
    (h : decode m ws = .ok (i, rest)) : ws.length = i.length + rest.length := by
  rw [eq_encode_append_of_decode h, List.length_append, encode_length]

theorem Instr.length_pos (i : Instr) : 0 < i.length := by
  unfold Instr.length
  split <;> decide

/-- The literal filled in, what the decoder makes of an own Word exists on the machine (spec/30_encoding.md R65). -/
theorem wellFormed_withLiteral_blank (c : Config) (i : Instr) {lit : Nat} (hlit : FitsWord c.wordBits lit) :
    ((i.blank c.memAddrMode).withLiteral lit).wellFormed c = true := by
  cases i with
  | loadConst _ _ => exact decide_eq_true hlit
  | loadMem _ _ | storeMem _ _ =>
    cases hmode : c.memAddrMode <;>
      simp [Instr.blank, MemAddrMode.addrForm, Instr.withLiteral, MemAddr.withLiteral, Instr.wellFormed,
        MemAddr.wellFormed, hmode, hlit]
  | _ => rfl

/-- An instruction decoded from Words of a machine exists on it (spec/30_encoding.md R65). -/
theorem wellFormed_of_decode {c : Config} {ws : List Nat} {i : Instr} {rest : List Nat}
    (h : decode c.memAddrMode ws = .ok (i, rest)) (hws : ∀ v ∈ ws, FitsWord c.wordBits v) :
    i.wellFormed c = true := by
  obtain ⟨w, j, hj, hcases⟩ := decode_ok_cases h
  have hblank := blank_of_decodeWord hj
  rcases hcases with ⟨hlit, rfl, -⟩ | ⟨-, lit, rfl, rfl⟩
  · have hwf := wellFormed_withLiteral_blank c i (lit := 0) (Nat.two_pow_pos _)
    rwa [hblank, Instr.withLiteral_of_no_literal hlit] at hwf
  · have hwf := wellFormed_withLiteral_blank c j (hws lit (by simp))
    rwa [hblank] at hwf

/-- Filling in the literal Words of a well-formed instruction gives the instruction. -/
theorem takeLiteral_blank_literalWords {c : Config} {i : Instr} (h : i.wellFormed c = true) (rest : List Nat) :
    takeLiteral (i.blank c.memAddrMode) (i.literalWords ++ rest) = .ok (i, rest) := by
  cases i with
  | loadMem _ addr | storeMem _ addr =>
    cases addr with
    | viaRegister =>
      have hmode : c.memAddrMode = .registerIndirect := by simpa [Instr.wellFormed, MemAddr.wellFormed] using h
      rw [hmode]
      rfl
    | literal a =>
      obtain ⟨hmode, -⟩ : c.memAddrMode = .trailingLiteral ∧ FitsWord c.wordBits a := by
        simpa [Instr.wellFormed, MemAddr.wellFormed] using h
      rw [hmode]
      rfl
  | _ => rfl

end Sys2Proof
end

section
/-!
The encoding's statements (spec/30_encoding.md).
-/

namespace Sys2Proof.Machine

/-- Settles O17: the own Word decodes to the instruction without its literal, and its literal Words fill that in. -/
theorem decodeInvertsEncode : Obligations.DecodeInvertsEncode := by
  intro c i rest hwf
  have hword : decodeWord c.memAddrMode i.firstWord = some (i.blank c.memAddrMode) := decodeWord_firstWord _ i
  rw [encode, List.cons_append, decode_cons_of_decodeWord hword, takeLiteral_blank_literalWords hwf]

/-- Settles O18: what decodes is an encoding and a rest, and its literal is one of the list's Words. -/
theorem encodeInvertsDecode : Obligations.EncodeInvertsDecode := by
  intro m ws i rest h
  refine ⟨(eq_encode_append_of_decode h).symm, ?_⟩
  rintro c rfl hws
  exact wellFormed_of_decode h hws

/-- No row of the opcode map covers a value with both high bits set: every row asks for them not to be
(spec/30_encoding.md R67, R74). -/
theorem filter_covers_eq_nil {v : BitVec 8} (hv : v &&& 0xC0 = 0xC0) : (opcodeMap.filter fun r => r.covers v) = [] := by
  have hrows : ∀ r ∈ opcodeMap, r.mask &&& 0xC0 = 0xC0 ∧ r.bits &&& 0xC0 ≠ 0xC0 := by decide
  refine List.filter_eq_nil_iff.2 fun r hr hcovers => ?_
  obtain ⟨hmask, hbits⟩ := hrows r hr
  have heq : v &&& r.mask = r.bits := by simpa [OpcodeRow.covers] using hcovers
  exact hbits (by rw [← heq, BitVec.and_assoc, hmask, hv])

theorem and_high_bits_of_ge {v : BitVec 8} (hv : 0xC0 ≤ v.toNat) : v &&& 0xC0 = 0xC0 := by
  revert v
  decide

/-- Settles O19: below `0xC0` a value is the own Word of what it decodes to, which its row alone covers. -/
theorem opcodeMapCoversEachValueOnce : Obligations.OpcodeMapCoversEachValueOnce := by
  intro m v hv
  split
  · next hlt =>
    rcases decodeWord_cases m v with ⟨-, i, hi, rfl, -⟩ | ⟨hge, -⟩
    · obtain ⟨-, hrows, -⟩ := encodedForm i
      exact ⟨i, hi, hrows⟩
    · omega
  · next hge =>
    have hval : (BitVec.ofNat 8 v).toNat = v := BitVec.toNat_ofNat v 8 ▸ Nat.mod_eq_of_lt hv
    exact filter_covers_eq_nil (and_high_bits_of_ge (by omega))

/-- Settles O20: the decoder's cases, read for the Words it gives nothing for. -/
theorem invalidWordsAreThoseFromC0 : Obligations.InvalidWordsAreThoseFromC0 :=
  decodeWord_eq_none_iff

/-- Settles O21: whether a literal is consumed is told by the first Word, and it is then the one Word consumed. -/
theorem lengthIsToldByTheFirstWord : Obligations.LengthIsToldByTheFirstWord := by
  intro m w ws i rest h
  change if WordTakesLiteral m w then _ else _
  obtain ⟨w', j, hj, hcases⟩ := decode_ok_cases h
  have hiff := consumesLiteral_iff_of_decodeWord hj
  rcases hcases with ⟨hlit, rfl, hws⟩ | ⟨hlit, lit, rfl, hws⟩
  · cases hws
    rw [if_neg (by simp [← hiff, hlit]), Instr.length, hlit]
    exact ⟨rfl, rfl⟩
  · cases hws
    rw [if_pos (hiff.1 hlit), Instr.length, Instr.consumesLiteral_withLiteral, hlit]
    exact ⟨rfl, rfl⟩

/-- Settles O22: each list is decoded by the model. -/
theorem decoderReadsTheSpecsWords : Obligations.DecoderReadsTheSpecsWords :=
  ⟨rfl, rfl, rfl, rfl, rfl, rfl, rfl, rfl⟩

/-- Settles O49: a valid Word is the own Word of what it decodes to, so its fields are that instruction's class,
sub-operation and registers; from class 12 up neither side gives a descriptor. -/
theorem descriptorFollowsTheFields : Obligations.DescriptorFollowsTheFields := by
  intro m w upper lower hupper hlower
  rcases decodeWord_cases m w with ⟨-, i, hi, rfl, hblank⟩ | ⟨hge, hnone⟩
  · rw [describe, hi, Option.map_some]
    cases i with
    | loadConst r _ | loadMem r _ | storeMem r _ | not r =>
      have hr := r.index_lt
      simp only [Instr.firstWord] at hupper hlower ⊢
      obtain rfl : lower = r := Reg.index_injective (by omega)
      rw [← hblank]
      cases m <;> cases lower <;> rfl
    | move rt rf | nand rt rf | and rt rf | nor rt rf | or rt rf | xnor rt rf | xor rt rf | add rt rf | addOvf rt rf
    | sub rt rf | subOvf rt rf =>
      have hrt := rt.index_lt
      have hrf := rf.index_lt
      simp only [Instr.firstWord] at hupper hlower ⊢
      obtain rfl : upper = rt := Reg.index_injective (by omega)
      obtain rfl : lower = rf := Reg.index_injective (by omega)
      cases upper <;> cases lower <;> rfl
  · obtain ⟨cls, hcls⟩ : ∃ cls, w / 16 = cls + 12 := ⟨w / 16 - 12, by omega⟩
    rw [describe, hnone, hcls]
    rfl

end Sys2Proof.Machine
end

section
/-!
The transfer instructions' statements (spec/41_transfer.md), with the rules of memory they rest on (spec/20_memory.md).
-/

namespace Sys2Proof.Machine

/-- `0000 00TT` with its literal, in both address modes (spec/41_transfer.md R100). -/
theorem decode_loadConst (m : MemAddrMode) (rt : Reg) (lit : Nat) (rest : List Nat) :
    decode m ((0x00 + rt.index) :: lit :: rest) = .ok (.loadConst rt lit, rest) :=
  decode_cons_of_decodeWord (decodeWord_firstWord m (.loadConst rt lit)) _

/-- An own Word that takes a literal is no instruction where it is the last (spec/40_control_unit.md R84). -/
theorem decode_firstWord_singleton {m : MemAddrMode} {i : Instr} (h : (i.blank m).consumesLiteral = true) :
    decode m [i.firstWord] = .error .truncatedLiteral :=
  (decode_eq_truncatedLiteral_iff m _ []).2 ⟨rfl, (consumesLiteral_blank_iff m i).1 h⟩

/-- Settles O1: the next state is the write of the literal to RT followed by the retirement of two Words. -/
theorem loadConstWritesItsLiteral : Obligations.LoadConstWritesItsLiteral := by
  intro rt lit s
  have hexec : exec (.loadConst rt lit) s = .next ((s.setReg rt lit).retire 2 none) := rfl
  exact ⟨fun m rest => decode_loadConst m rt lit rest,
    fun m => decode_firstWord_singleton (i := .loadConst rt lit) rfl,
    _, hexec, by simp, rfl, rfl, registerFrame_setReg_retire s rt lit 2 none⟩

theorem pc_add_instrWords (pc : Nat) (addr : MemAddr) :
    pc + addr.instrWords = if addr = .viaRegister then pc + 1 else pc + 2 := by
  cases addr <;> rfl

theorem execLoadMem_of_inRange {rt : Reg} {addr : MemAddr} {s : State} (h : s.InRange (s.effectiveAddress rt addr)) :
    exec (.loadMem rt addr) s =
      .next ((s.setReg rt (s.memRead (s.effectiveAddress rt addr))).retire addr.instrWords none) :=
  if_pos h

theorem execStoreMem_of_inRange {rf : Reg} {addr : MemAddr} {s : State} (h : s.InRange (s.effectiveAddress rf addr)) :
    exec (.storeMem rf addr) s =
      .next ((s.memWrite (s.effectiveAddress rf addr) (s.reg rf)).retire addr.instrWords none) :=
  if_pos h

/-- Settles O2: in range the next state is the write of the Word read to RT followed by the retirement of the
instruction's Words. -/
theorem loadMemLoadsTheAddressedWord : Obligations.LoadMemLoadsTheAddressedWord := by
  intro rt s
  refine ⟨decode_cons_of_no_literal (decodeWord_firstWord .registerIndirect (.loadMem rt .viaRegister)) rfl,
    fun a rest => decode_cons_of_decodeWord (decodeWord_firstWord .trailingLiteral (.loadMem rt (.literal a))) _,
    decode_firstWord_singleton (i := .loadMem rt .viaRegister) rfl, rfl, fun _ => rfl, fun addr => ?_⟩
  split
  · next hin =>
    exact ⟨_, execLoadMem_of_inRange hin, by simp, pc_add_instrWords s.pc addr, rfl,
      registerFrame_setReg_retire s rt _ _ none⟩
  · next hout => exact if_neg hout

/-- A store keeps within the frame of the cell at its address, whatever the Word and the length. -/
theorem storeFrame_memWrite_retire (s : State) (a v n : Nat) (o : Option Bool) :
    StoreFrame a s ((s.memWrite a v).retire n o) :=
  ⟨fun _ => by simp, fun _ hne => Memory.read_write_ne s.mem v hne, by simp, by simp, by simp⟩

theorem memRead_memWrite_same {s : State} (hmem : s.mem.wf) (a v : Nat) : (s.memWrite a v).memRead a = v :=
  Memory.read_write_same hmem a v

/-- Settles O3: in range the next state is the write of `x[rf]` to memory followed by the retirement of the instruction's
Words. -/
theorem storeMemStoresAtItsAddressOnly : Obligations.StoreMemStoresAtItsAddressOnly := by
  intro rf s hmem
  refine ⟨decode_cons_of_no_literal (decodeWord_firstWord .registerIndirect (.storeMem rf .viaRegister)) rfl,
    fun a rest => decode_cons_of_decodeWord (decodeWord_firstWord .trailingLiteral (.storeMem rf (.literal a))) _,
    decode_firstWord_singleton (i := .storeMem rf .viaRegister) rfl, rfl, fun _ => rfl, fun addr => ?_⟩
  split
  · next hin =>
    exact ⟨_, execStoreMem_of_inRange hin, memRead_memWrite_same hmem _ _, pc_add_instrWords s.pc addr, rfl,
      storeFrame_memWrite_retire s _ _ _ none⟩
  · next hout => exact if_neg hout

/-- Settles O5: the load's address is in range because the store's was, and reads what the store wrote. -/
theorem loadAfterStoreReturnsStoredWord : Obligations.LoadAfterStoreReturnsStoredWord := by
  intro rf rt src dst s t hmem hin hstore haddr
  cases (execStoreMem_of_inRange hin).symm.trans hstore
  refine ⟨_, execLoadMem_of_inRange (by rw [haddr]; exact hin), ?_, rfl⟩
  rw [State.reg_retire, State.reg_setReg_same, haddr]
  exact memRead_memWrite_same hmem _ _

/-- Any number of writes keeps the canonical form. -/
theorem Memory.foldl_write_wf {m : Memory} (hm : m.wf) (writes : List (Nat × Nat)) :
    (writes.foldl (fun acc x => acc.write x.1 x.2) m).wf := by
  induction writes generalizing m with
  | nil => exact hm
  | cons x xs ih => exact ih (Memory.write_wf hm x.1 x.2)

/-- Settles O6, by induction on the writes from the last one back. -/
theorem readReturnsMostRecentWrite : Obligations.ReadReturnsMostRecentWrite := by
  intro writes m a hm
  induction writes using List.reverseRecOn with
  | nil => rfl
  | append_singleton xs x ih =>
    rw [List.foldl_append, List.reverse_append]
    by_cases hx : x.1 = a
    · subst hx
      simpa using Memory.read_write_same (Memory.foldl_write_wf hm xs) x.1 x.2
    · simpa [hx] using (Memory.read_write_ne _ x.2 (Ne.symm hx)).trans ih

end Sys2Proof.Machine
end

section
/-!
The statements about the gates and the logic instructions (spec/42_logic.md) that rest on the gates' truth table.
-/

namespace Sys2Proof.Machine

/-! ## The gates, bit by bit (spec/42_logic.md R122) -/

section Gates

variable {w : Nat} (a b : Word w) {j : Nat} (hj : j < w)

include hj

theorem getLsbD_aluAnd : (aluAnd a b).getLsbD j = (a.getLsbD j && b.getLsbD j) := by
  rw [aluAnd, getLsbD_aluNot _ hj, getLsbD_aluNand a b hj, Bool.not_not]

theorem getLsbD_aluNor : (aluNor a b).getLsbD j = !(a.getLsbD j || b.getLsbD j) := by
  rw [aluNor, getLsbD_aluNot _ hj, getLsbD_aluNand _ _ hj, getLsbD_aluNot a hj, getLsbD_aluNot b hj, Bool.not_not,
    Bool.not_or]

theorem getLsbD_aluOr : (aluOr a b).getLsbD j = (a.getLsbD j || b.getLsbD j) := by
  rw [aluOr, getLsbD_aluNot _ hj, getLsbD_aluNor a b hj, Bool.not_not]

theorem getLsbD_aluXnor : (aluXnor a b).getLsbD j = (a.getLsbD j == b.getLsbD j) := by
  rw [aluXnor, getLsbD_aluNand _ _ hj, getLsbD_aluNand _ _ hj, getLsbD_aluNand a b hj, getLsbD_aluNot a hj,
    getLsbD_aluNot b hj]
  cases a.getLsbD j <;> cases b.getLsbD j <;> rfl

theorem getLsbD_aluXor : (aluXor a b).getLsbD j = (a.getLsbD j != b.getLsbD j) := by
  rw [aluXor, getLsbD_aluNot _ hj, getLsbD_aluXnor a b hj, bne]

end Gates

/-- Settles O8: one lemma per gate, each from those of the gates it is made of. -/
theorem derivedGatesMeetTruthTable : Obligations.DerivedGatesMeetTruthTable := by
  intro w a b j hj
  exact ⟨getLsbD_aluNot a hj, getLsbD_aluAnd a b hj, getLsbD_aluNor a b hj, getLsbD_aluOr a b hj,
    getLsbD_aluXnor a b hj, getLsbD_aluXor a b hj⟩

/-! ## The instructions (spec/42_logic.md R129 to R134) -/

/-- An instruction of format R that writes a gate's Word to RT and retires one Word meets its gate bit by bit. -/
theorem bitwiseInstruction_of_gate {base : Nat} {mk : Reg → Reg → Instr} {gate : Bool → Bool → Bool}
    {alu : ∀ {w : Nat}, Word w → Word w → Word w}
    (hword : ∀ m rt rf, decodeWord m (base + 4 * rt.index + rf.index) = some (mk rt rf))
    (hlit : ∀ rt rf, (mk rt rf).consumesLiteral = false)
    (hexec : ∀ rt rf s, exec (mk rt rf) s =
      .next ((s.setReg rt (alu (s.aluOperand rt) (s.aluOperand rf)).toNat).retire 1 none))
    (hgate : ∀ {w : Nat} (a b : Word w) {j : Nat}, j < w →
      (alu a b).getLsbD j = gate (a.getLsbD j) (b.getLsbD j)) :
    BitwiseInstruction base mk gate := by
  intro rt rf s
  refine ⟨fun m => decode_cons_of_no_literal (hword m rt rf) (hlit rt rf), _, hexec rt rf s, fun j hj => ?_, ?_, rfl, rfl,
    registerFrame_setReg_retire s rt _ 1 none⟩
  · rw [State.reg_retire, State.reg_setReg_same, BitVec.testBit_toNat, hgate _ _ hj, State.getLsbD_aluOperand s rt hj,
      State.getLsbD_aluOperand s rf hj]
  · rw [State.reg_retire, State.reg_setReg_same]
    exact BitVec.isLt _

/-- Settles O11: six gates, one rule. -/
theorem logicInstructionsComputeTheirGates : Obligations.LogicInstructionsComputeTheirGates :=
  ⟨bitwiseInstruction_of_gate (fun m rt rf => decodeWord_firstWord m (.nand rt rf)) (fun _ _ => rfl) (fun _ _ _ => rfl)
      getLsbD_aluNand,
    bitwiseInstruction_of_gate (fun m rt rf => decodeWord_firstWord m (.and rt rf)) (fun _ _ => rfl) (fun _ _ _ => rfl)
      getLsbD_aluAnd,
    bitwiseInstruction_of_gate (fun m rt rf => decodeWord_firstWord m (.nor rt rf)) (fun _ _ => rfl) (fun _ _ _ => rfl)
      getLsbD_aluNor,
    bitwiseInstruction_of_gate (fun m rt rf => decodeWord_firstWord m (.or rt rf)) (fun _ _ => rfl) (fun _ _ _ => rfl)
      getLsbD_aluOr,
    bitwiseInstruction_of_gate (fun m rt rf => decodeWord_firstWord m (.xnor rt rf)) (fun _ _ => rfl) (fun _ _ _ => rfl)
      getLsbD_aluXnor,
    bitwiseInstruction_of_gate (fun m rt rf => decodeWord_firstWord m (.xor rt rf)) (fun _ _ => rfl) (fun _ _ _ => rfl)
      getLsbD_aluXor⟩

end Sys2Proof.Machine
end

section
/-!
The instructions "with overflow" (spec/43_arithmetic.md) and the same-register idioms (spec/30_encoding.md section 8).
-/

namespace Sys2Proof.Machine

/-- Settles O14: each next state is the write of the wrapped result to RT followed by the retirement of one Word with the
flag as output; the operands are the registers themselves because these hold Words. -/
theorem addOvfAndSubOvfExposeTheFlag : Obligations.AddOvfAndSubOvfExposeTheFlag := by
  intro rt rf s hfits
  have hadd : exec (.addOvf rt rf) s =
      .next ((s.setReg rt (aluAdd (s.aluOperand rt) (s.aluOperand rf)).1.toNat).retire 1
        (some (aluAdd (s.aluOperand rt) (s.aluOperand rf)).2)) := rfl
  have hsub : exec (.subOvf rt rf) s =
      .next ((s.setReg rt (aluSub (s.aluOperand rt) (s.aluOperand rf)).1.toNat).retire 1
        (some (aluSub (s.aluOperand rt) (s.aluOperand rf)).2)) := rfl
  obtain ⟨-, hcarry, -, hdiff, hborrow⟩ := adderAndSubtractorAreExact _ (s.aluOperand rt) (s.aluOperand rf)
  rw [State.toNat_aluOperand hfits, State.toNat_aluOperand hfits] at hcarry hdiff hborrow
  refine ⟨fun m => decode_cons_of_no_literal (decodeWord_firstWord m (.addOvf rt rf)) rfl,
    fun m => decode_cons_of_no_literal (decodeWord_firstWord m (.subOvf rt rf)) rfl,
    ⟨_, hadd, ?_, congrArg some hcarry, rfl, registerFrame_setReg_retire s rt _ 1 _⟩,
    ⟨_, hsub, ?_, congrArg some hborrow, rfl, registerFrame_setReg_retire s rt _ 1 _⟩⟩
  · rw [State.reg_retire, State.reg_setReg_same, toNat_aluAdd_aluOperand]
  · rw [State.reg_retire, State.reg_setReg_same, hdiff]

/-- Settles O15: the two meanings of each pair differ in the output they retire with. -/
theorem exposingTheFlagChangesNothingElse : Obligations.ExposingTheFlagChangesNothingElse := by
  intro rt rf s
  exact ⟨⟨_, _, rfl, rfl, rfl, by simp, rfl⟩, ⟨_, _, rfl, rfl, rfl, by simp, rfl⟩⟩

/-! ## A gate of a Word with itself -/

theorem aluAnd_self {w : Nat} (a : Word w) : aluAnd a a = a :=
  aluNot_aluNot a

theorem aluNor_self {w : Nat} (a : Word w) : aluNor a a = aluNot a := by
  rw [aluNor, ← aluNot, aluNot_aluNot]

theorem aluOr_self {w : Nat} (a : Word w) : aluOr a a = a := by
  rw [aluOr, aluNor_self, aluNot_aluNot]

theorem aluXor_self {w : Nat} (a : Word w) : aluXor a a = 0#w := by
  refine BitVec.eq_of_getLsbD_eq fun j hj => ?_
  rw [getLsbD_aluXor a a hj, bne_self_eq_false, BitVec.getLsbD_zero]

theorem aluXnor_self {w : Nat} (a : Word w) : aluXnor a a = BitVec.allOnes w := by
  rw [← aluNot_aluNot (aluXnor a a), ← aluXor, aluXor_self, aluNot_eq_complement, BitVec.not_zero]

theorem State.setReg_reg_self (s : State) (r : Reg) : s.setReg r (s.reg r) = s := by
  cases r <;> rfl

/-- Settles O16: each gate of a Word with itself is a constant, the Word or its complement, and a write of a register's
own Word changes no register. -/
theorem sameRegisterIdioms : Obligations.SameRegisterIdioms := by
  intro r s hfits
  have hkeeps : ∀ v, v = s.reg r →
      (.next ((s.setReg r v).retire 1 none) : Host.Outcome State Fault Refusal) = .next (s.retire 1 none) := by
    rintro v rfl
    rw [State.setReg_reg_self]
  refine ⟨⟨_, rfl, ?_⟩, ⟨_, rfl, ?_⟩, ⟨_, rfl, ?_⟩, hkeeps _ rfl, hkeeps _ ?_, hkeeps _ ?_, ?_, ?_, ⟨_, rfl, ?_⟩⟩
  · rw [State.reg_retire, State.reg_setReg_same, aluXor_self, BitVec.toNat_zero]
  · rw [State.reg_retire, State.reg_setReg_same, toNat_aluSub_of_le le_rfl, Nat.sub_self]
  · rw [State.reg_retire, State.reg_setReg_same, aluXnor_self, BitVec.toNat_allOnes, wordMask]
  · rw [aluAnd_self, State.toNat_aluOperand hfits]
  · rw [aluOr_self, State.toNat_aluOperand hfits]
  · rfl
  · change Host.Outcome.next _ = Host.Outcome.next _
    rw [aluNor_self]
  · rw [State.reg_retire, State.reg_setReg_same, toNat_aluAdd_aluOperand, Nat.two_mul]

end Sys2Proof.Machine
end

section
/-!
The step's statements (spec/40_control_unit.md, 60_exceptions.md).
-/

namespace Sys2Proof.Machine

/-! ## What a next state can be -/

/-- What a meaning's next state can be: RT written, a cell stored, or a memory fault. -/
theorem exec_next_cases {i : Instr} {s t : State} (h : exec i s = .next t) :
    (∃ rt, destinationOf i = some rt ∧
      t = (s.setReg rt (resultWord s i)).retire i.length (overflowOutput s i)) ∨
    (∃ rf addr, i = .storeMem rf addr ∧ s.InRange (s.effectiveAddress rf addr) ∧
      t = (s.memWrite (s.effectiveAddress rf addr) (s.reg rf)).retire i.length none) ∨
    t = s.raise .memoryOutOfRange := by
  rcases exec_cases i s with ⟨rt, hrt, he, -⟩ | ⟨rf, addr, hi, hin, he⟩ | ⟨a, -, -, he⟩ <;> cases he.symm.trans h
  · exact .inl ⟨rt, hrt, rfl⟩
  · exact .inr (.inl ⟨rf, addr, hi, hin, rfl⟩)
  · exact .inr (.inr rfl)

/-- What a step's next state can be. -/
theorem step_next_cases {s t : State} (h : step s = .next t) :
    (s.run ≠ .running ∧ t = s.idle) ∨
    (s.run = .running ∧
      ((decode s.cfg.memAddrMode (s.stream.drop s.pc) = .error .endOfStream ∧ t = s.halt) ∨
       (decode s.cfg.memAddrMode (s.stream.drop s.pc) = .error .invalidOpcode ∧ t = s.raise .invalidOpcode) ∨
       (decode s.cfg.memAddrMode (s.stream.drop s.pc) = .error .truncatedLiteral ∧ t = s.raise .truncatedLiteral) ∨
       ∃ i rest, decode s.cfg.memAddrMode (s.stream.drop s.pc) = .ok (i, rest) ∧ exec i s = .next t)) := by
  rcases step_cases s with ⟨-, hs⟩ | ⟨-, hstopped, hs⟩ | ⟨-, hrun, ⟨hd, hs⟩ | ⟨hd, hs⟩ | ⟨hd, hs⟩ | ⟨i, rest, hd, hs⟩⟩
  · cases hs.symm.trans h
  · cases hs.symm.trans h
    exact .inl ⟨hstopped, rfl⟩
  · cases hs.symm.trans h
    exact .inr ⟨hrun, .inl ⟨hd, rfl⟩⟩
  · cases hs.symm.trans h
    exact .inr ⟨hrun, .inr (.inl ⟨hd, rfl⟩)⟩
  · cases hs.symm.trans h
    exact .inr ⟨hrun, .inr (.inr (.inl ⟨hd, rfl⟩))⟩
  · exact .inr ⟨hrun, .inr (.inr (.inr ⟨i, rest, hd, hs.symm.trans h⟩))⟩

/-- A step either completes an instruction, which writes its destination or stores, or writes nothing but the run state
and the output. -/
theorem step_writes_run_or_completes {s t : State} (h : step s = .next t) :
    t = { s with run := t.run, ovf := none } ∨
    (s.run = .running ∧ ∃ i rest, decode s.cfg.memAddrMode (s.stream.drop s.pc) = .ok (i, rest) ∧
      ((∃ rt, destinationOf i = some rt ∧
          t = (s.setReg rt (resultWord s i)).retire i.length (overflowOutput s i)) ∨
       ∃ rf addr, i = .storeMem rf addr ∧ s.InRange (s.effectiveAddress rf addr) ∧
          t = (s.memWrite (s.effectiveAddress rf addr) (s.reg rf)).retire i.length none)) := by
  rcases step_next_cases h with
    ⟨-, rfl⟩ | ⟨hrun, ⟨-, rfl⟩ | ⟨-, rfl⟩ | ⟨-, rfl⟩ | ⟨i, rest, hd, hexec⟩⟩
  · exact .inl rfl
  · exact .inl rfl
  · exact .inl rfl
  · exact .inl rfl
  · rcases exec_next_cases hexec with hwrite | hstore | rfl
    · exact .inr ⟨hrun, i, rest, hd, .inl hwrite⟩
    · exact .inr ⟨hrun, i, rest, hd, .inr hstore⟩
    · exact .inl rfl

/-! ## Single steps -/

/-- Settles O25: the model asks for legal parameters before anything else. -/
theorem stepStopsOnIllegalInstance : Obligations.StepStopsOnIllegalInstance := by
  intro s hillegal
  have hl : ¬ s.LegalInstance := by
    rintro ⟨⟨hword, hpc⟩, hstream⟩
    omega
  exact if_neg hl

/-- A step of a terminal state is idle (spec/40_control_unit.md R81). -/
theorem step_of_not_running {s : State} (hl : s.LegalInstance) (hrun : s.run ≠ .running) :
    step s = .next s.idle := by
  rcases step_cases s with ⟨hillegal, -⟩ | ⟨-, -, hs⟩ | ⟨-, hrunning, -⟩
  · exact absurd hl hillegal
  · exact hs
  · exact absurd hrunning hrun

theorem State.idle_eq_self {s : State} (h : s.ovf = none) : s.idle = s := by
  rw [State.idle, ← h]

/-- Settles O32: a terminal step sets the overflow output to none, where it may have been already. -/
theorem terminalStepChangesNothing : Obligations.TerminalStepChangesNothing := by
  intro s hl hrun
  have hstep := step_of_not_running hl hrun
  exact ⟨hstep, fun hovf => State.idle_eq_self hovf ▸ hstep⟩

/-! A step of a running core does what the decoder's answer asks for (spec/40_control_unit.md R87). -/

theorem step_of_decode_invalidOpcode {s : State} (hl : s.LegalInstance) (hrun : s.run = .running)
    (hd : decode s.cfg.memAddrMode (s.stream.drop s.pc) = .error .invalidOpcode) :
    step s = .next (s.raise .invalidOpcode) := by
  simp only [step, if_pos hl, State.fetch, hrun, hd]

theorem step_of_decode_truncatedLiteral {s : State} (hl : s.LegalInstance) (hrun : s.run = .running)
    (hd : decode s.cfg.memAddrMode (s.stream.drop s.pc) = .error .truncatedLiteral) :
    step s = .next (s.raise .truncatedLiteral) := by
  simp only [step, if_pos hl, State.fetch, hrun, hd]

/-- Settles O23: the third answer of the decoder, an instruction. -/
theorem stepRunsTheDecodedInstruction : Obligations.StepRunsTheDecodedInstruction := by
  intro s i rest hl hrun hd
  simp only [step, if_pos hl, State.fetch, hrun, hd]

/-- Every meaning answers a next state. -/
theorem exec_total (i : Instr) (s : State) : ∃ t, exec i s = .next t := by
  rcases exec_cases i s with ⟨_, -, he, -⟩ | ⟨_, _, -, -, he⟩ | ⟨_, -, -, he⟩
  · exact ⟨_, he⟩
  · exact ⟨_, he⟩
  · exact ⟨_, he⟩

/-- Settles O24: illegal parameters are the one stop, and every meaning answers a next state. -/
theorem stepIsTotal : Obligations.StepIsTotal := by
  intro s hl
  rcases step_cases s with ⟨hillegal, -⟩ | ⟨-, -, hs⟩ | ⟨-, -, ⟨-, hs⟩ | ⟨-, hs⟩ | ⟨-, hs⟩ | ⟨i, rest, -, hs⟩⟩
  · exact absurd hl hillegal
  · exact ⟨_, hs⟩
  · exact ⟨_, hs⟩
  · exact ⟨_, hs⟩
  · exact ⟨_, hs⟩
  · exact hs ▸ exec_total i s

theorem drop_eq_cons_of_getElem? {l : List Nat} {n w : Nat} (h : l[n]? = some w) : l.drop n = w :: l.drop (n + 1) := by
  obtain ⟨hlt, rfl⟩ := List.getElem?_eq_some_iff.1 h
  exact List.drop_eq_getElem_cons hlt

/-- Settles O26: each branch is the decoder's answer for the Words at `pc`, the missing literal being an end of the
list. -/
theorem stepChecksInOrder : Obligations.StepChecksInOrder := by
  intro s hl
  split
  · next hrun => exact step_of_not_running hl hrun
  next hrun =>
  replace hrun : s.run = .running := not_not.1 hrun
  split
  · next hend => exact step_eq_halt_of_length_le_pc hl hrun hend
  next hpc =>
  replace hpc : s.pc < s.stream.length := Nat.lt_of_not_le hpc
  have hok := fun i rest => stepRunsTheDecodedInstruction s i rest hl hrun
  have hinvalid := step_of_decode_invalidOpcode hl hrun
  have htruncated := step_of_decode_truncatedLiteral hl hrun
  have hdrop : s.stream.drop s.pc = s.stream.getD s.pc 0 :: s.stream.drop (s.pc + 1) := by
    rw [List.getD_eq_getElem _ _ hpc]
    exact List.drop_eq_getElem_cons hpc
  rw [hdrop] at hok hinvalid htruncated
  split
  · next hnone => exact hinvalid ((decode_eq_invalidOpcode_iff ..).2 ((decodeWord_eq_none_iff ..).1 hnone))
  next i hi =>
  rw [decode_cons_of_decodeWord hi] at hok htruncated
  cases hlit : i.consumesLiteral with
  | false =>
    rw [if_neg (by simp), Instr.withLiteral_of_no_literal hlit]
    exact hok i _ (takeLiteral_of_no_literal hlit _)
  | true =>
    split
    · next hlast =>
      rw [List.drop_eq_nil_iff.2 hlast.2] at htruncated
      exact htruncated (takeLiteral_nil hlit)
    · next hmore =>
      have hnext : s.pc + 1 < s.stream.length := by simpa using hmore
      rw [List.drop_eq_getElem_cons hnext] at hok
      rw [List.getD_eq_getElem _ _ hnext]
      exact hok _ _ (takeLiteral_cons hlit _ _)

/-- A step that takes a fault changes what `raise` changes, and a fault of the fetch is the decoder's answer. -/
theorem step_faulted_cases {s t : State} {k : FaultKind} {p : Nat} (hstep : step s = .next t) (hrun : s.run = .running)
    (hfault : t.run = .faulted k p) :
    t = s.raise k ∧
      ((k = .invalidOpcode ∧ decode s.cfg.memAddrMode (s.stream.drop s.pc) = .error .invalidOpcode) ∨
       (k = .truncatedLiteral ∧ decode s.cfg.memAddrMode (s.stream.drop s.pc) = .error .truncatedLiteral) ∨
       k = .memoryOutOfRange) := by
  rcases step_next_cases hstep with
    ⟨hstopped, -⟩ | ⟨-, ⟨-, rfl⟩ | ⟨hd, rfl⟩ | ⟨hd, rfl⟩ | ⟨i, rest, -, hexec⟩⟩
  · exact absurd hrun hstopped
  · cases hfault
  · cases hfault
    exact ⟨rfl, .inl ⟨rfl, hd⟩⟩
  · cases hfault
    exact ⟨rfl, .inr (.inl ⟨rfl, hd⟩)⟩
  · rcases exec_advances_or_raises hexec with ⟨-, hkeeps⟩ | rfl
    · cases (hkeeps.trans hrun).symm.trans hfault
    · cases hfault
      exact ⟨rfl, .inr (.inr rfl)⟩

theorem decode_eq_invalidOpcode_of_step {s t : State} {p : Nat} (hstep : step s = .next t) (hrun : s.run = .running)
    (hfault : t.run = .faulted .invalidOpcode p) :
    decode s.cfg.memAddrMode (s.stream.drop s.pc) = .error .invalidOpcode := by
  simpa using (step_faulted_cases hstep hrun hfault).2

theorem decode_eq_truncatedLiteral_of_step {s t : State} {p : Nat} (hstep : step s = .next t)
    (hrun : s.run = .running) (hfault : t.run = .faulted .truncatedLiteral p) :
    decode s.cfg.memAddrMode (s.stream.drop s.pc) = .error .truncatedLiteral := by
  simpa using (step_faulted_cases hstep hrun hfault).2

/-- Settles O28: the fault is the decoder's answer to an invalid Word, and no other step ends in it. -/
theorem invalidOpcodeExactlyOnInvalidWords : Obligations.InvalidOpcodeExactlyOnInvalidWords := by
  intro s w hl hrun hw
  rw [← decode_eq_invalidOpcode_iff s.cfg.memAddrMode w (s.stream.drop (s.pc + 1)), ← drop_eq_cons_of_getElem? hw]
  exact ⟨fun hstep => decode_eq_invalidOpcode_of_step hstep hrun rfl, step_of_decode_invalidOpcode hl hrun⟩

/-- Settles O29: the fault is the decoder's answer to a last Word that takes a literal, and no other step ends in it. -/
theorem truncatedLiteralExactlyAtLastWord : Obligations.TruncatedLiteralExactlyAtLastWord := by
  intro s w hl hrun hw
  have hpc : s.pc < s.stream.length := (List.getElem?_eq_some_iff.1 hw).1
  have hlast : s.pc + 1 = s.stream.length ↔ s.stream.drop (s.pc + 1) = [] := by
    rw [List.drop_eq_nil_iff]
    omega
  change _ ↔ _ ∧ WordTakesLiteral s.cfg.memAddrMode w
  rw [hlast, ← decode_eq_truncatedLiteral_iff, ← drop_eq_cons_of_getElem? hw]
  exact ⟨fun hstep => decode_eq_truncatedLiteral_of_step hstep hrun rfl, step_of_decode_truncatedLiteral hl hrun⟩

/-- Settles O30: a meaning that completes moves `pc`, which the fault does not. -/
theorem memoryFaultExactlyOutOfRange : Obligations.MemoryFaultExactlyOutOfRange := by
  intro i s
  have hlen := i.length_pos
  refine ⟨⟨fun h => ?_, ?_⟩, fun t h => (exec_advances_or_raises h).imp_left And.right⟩
  · rcases exec_cases i s with ⟨rt, -, he, -⟩ | ⟨rf, addr, -, -, he⟩ | ⟨a, ha, hout, -⟩
    · have hpc : s.pc + i.length = s.pc := congrArg State.pc (Host.Outcome.next.inj (he.symm.trans h))
      omega
    · have hpc : s.pc + i.length = s.pc := congrArg State.pc (Host.Outcome.next.inj (he.symm.trans h))
      omega
    · exact ⟨a, ha, Nat.le_of_not_lt hout⟩
  · rintro ⟨a, ha, hge⟩
    rcases exec_cases i s with ⟨rt, -, -, hin⟩ | ⟨rf, addr, rfl, hin, -⟩ | ⟨b, -, -, he⟩
    · exact absurd (hin a ha) (Nat.not_lt.2 hge)
    · cases ha
      exact absurd hin (Nat.not_lt.2 hge)
    · exact he

/-- Settles O31: a completed instruction leaves the core running, and every other step writes the run state alone. -/
theorem endingStepWritesOnlyRunState : Obligations.EndingStepWritesOnlyRunState := by
  intro s t hstep hrun hends
  refine ⟨?_, fun k p hfault => ?_⟩
  · rcases step_writes_run_or_completes hstep with ht | ⟨-, i, rest, -, ⟨rt, -, rfl⟩ | ⟨rf, addr, -, -, rfl⟩⟩
    · exact ht
    · exact absurd hrun hends
    · exact absurd hrun hends
  · obtain ⟨rfl, -⟩ := step_faulted_cases hstep hrun hfault
    cases hfault
    rfl

/-- Settles O50: an invalid Word stands at `pc`, which the fault records and leaves, and the stream is unchanged. -/
theorem invalidWordIsReadAtTheFaultIndex : Obligations.InvalidWordIsReadAtTheFaultIndex := by
  intro s t p hstep hrun hfault
  have hd := decode_eq_invalidOpcode_of_step hstep hrun hfault
  obtain ⟨rfl, -⟩ := step_faulted_cases hstep hrun hfault
  cases hfault
  cases hw : s.stream[s.pc]? with
  | none =>
    rw [List.drop_eq_nil_iff.2 (List.getElem?_eq_none_iff.1 hw)] at hd
    cases hd
  | some w =>
    rw [drop_eq_cons_of_getElem? hw, decode_eq_invalidOpcode_iff] at hd
    have hinspect : s.inspect (.streamWord s.pc) = .word w := by simp only [State.inspect, hw]
    exact ⟨w, hinspect, hinspect, hd⟩

theorem padTo_length (n : Nat) (l : List Nat) : (padTo n l).length = n := by
  induction n generalizing l with
  | zero => rfl
  | succ n ih => cases l <;> simp [padTo, ih]

/-- Settles O48: the placed Words stand at `pc`, and the Words behind them do not change what they decode to. -/
theorem placedWordIsRunNext : Obligations.PlacedWordIsRunNext := by
  intro s nbits w i rest hl hd
  have hdrop : (s.withFetchWord nbits w).stream.drop (s.withFetchWord nbits w).pc =
      tableWords s.cfg.wordBits nbits w ++ s.stream.drop (s.pc + (tableWords s.cfg.wordBits nbits w).length) := by
    change List.drop s.pc (padTo s.pc s.stream ++ _ ++ _) = _
    rw [List.append_assoc, List.drop_left' (padTo_length _ _)]
  have hplaced := decode_append_of_ok hd (s.stream.drop (s.pc + (tableWords s.cfg.wordBits nbits w).length))
  rw [← hdrop] at hplaced
  exact stepRunsTheDecodedInstruction _ i _ hl rfl hplaced

end Sys2Proof.Machine
end

section
/-!
The whole-machine rules: what every step changes and keeps (spec/10_state.md, 20_memory.md, 00_scope.md R10).
-/

namespace Sys2Proof.Machine

/-! ## What a step changes -/

/-- Settles O36: neither a write of the run state nor a completed instruction touches them. -/
theorem streamAndParametersNeverChange : Obligations.StreamAndParametersNeverChange := by
  intro s t h
  rcases step_writes_run_or_completes h with ht | ⟨-, i, rest, -, ⟨rt, -, rfl⟩ | ⟨rf, addr, -, -, rfl⟩⟩
  · rw [ht]
    exact ⟨rfl, rfl⟩
  · exact ⟨rfl, rfl⟩
  · exact ⟨rfl, rfl⟩

/-- Settles O34: only a completed instruction with a destination writes a register, and it writes that one. -/
theorem registersChangeOnlyByTheirInstructions : Obligations.RegistersChangeOnlyByTheirInstructions := by
  intro s t r h hne
  rcases step_writes_run_or_completes h with ht | ⟨hrun, i, rest, hd, ⟨rt, hrt, rfl⟩ | ⟨rf, addr, -, -, rfl⟩⟩
  · rw [ht] at hne
    exact absurd rfl hne
  · have hr : r = rt := by
      by_contra hr
      exact hne (State.reg_setReg_ne s _ hr)
    exact ⟨hrun, i, rest, hd, hr ▸ hrt⟩
  · exact absurd rfl hne

/-- Settles O35: only a completed StoreMem writes memory, and only the cell at its address. -/
theorem memoryChangesOnlyByStoreMem : Obligations.MemoryChangesOnlyByStoreMem := by
  intro s t a h hne
  rcases step_writes_run_or_completes h with ht | ⟨hrun, i, rest, hd, ⟨rt, -, rfl⟩ | ⟨rf, addr, rfl, hin, rfl⟩⟩
  · rw [ht] at hne
    exact absurd rfl hne
  · exact absurd rfl hne
  · have ha : s.effectiveAddress rf addr = a := by
      by_contra ha
      exact hne (Memory.read_write_ne s.mem _ (Ne.symm ha))
    subst ha
    exact ⟨hrun, rf, addr, rest, hd, rfl, hin, fun hmem => memRead_memWrite_same hmem _ _⟩

/-- Only AddOvf and SubOvf give an overflow output (spec/43_arithmetic.md section 2). -/
theorem overflowOutput_eq_some {s : State} {i : Instr} {b : Bool} (h : overflowOutput s i = some b) :
    ∃ rt rf, (i = .addOvf rt rf ∧ b = (aluAdd (s.aluOperand rt) (s.aluOperand rf)).2) ∨
      (i = .subOvf rt rf ∧ b = (aluSub (s.aluOperand rt) (s.aluOperand rf)).2) := by
  cases i with
  | addOvf rt rf => exact ⟨rt, rf, .inl ⟨rfl, (Option.some.inj h).symm⟩⟩
  | subOvf rt rf => exact ⟨rt, rf, .inr ⟨rfl, (Option.some.inj h).symm⟩⟩
  | _ => cases h

/-- Settles O38: the output of a step is that of the instruction it completed, and the operands are the registers
themselves because these hold Words. -/
theorem overflowOutputOnlyFromOvfInstructions : Obligations.OverflowOutputOnlyFromOvfInstructions := by
  intro s t b hfits h hovf
  rcases step_writes_run_or_completes h with ht | ⟨-, i, rest, hd, ⟨rt, -, rfl⟩ | ⟨rf, addr, -, -, rfl⟩⟩
  · rw [ht] at hovf
    cases hovf
  · obtain ⟨rt, rf, ⟨rfl, rfl⟩ | ⟨rfl, rfl⟩⟩ := overflowOutput_eq_some hovf
    · refine ⟨rt, rf, rest, .inl ⟨hd, ?_⟩⟩
      rw [aluAdd, carryOut, State.toNat_aluOperand hfits, State.toNat_aluOperand hfits]
    · refine ⟨rt, rf, rest, .inr ⟨hd, ?_⟩⟩
      rw [aluSub, borrowOut, State.toNat_aluOperand hfits, State.toNat_aluOperand hfits]
  · cases hovf

/-- No meaning reads the overflow output. -/
theorem exec_with_ovf (i : Instr) (s : State) (o : Option Bool) : exec i { s with ovf := o } = exec i s := by
  cases i <;> rfl

/-- Settles O39: the fetch and the meanings read every field but the output, and every next state sets it. -/
theorem noStepReadsTheOverflowOutput : Obligations.NoStepReadsTheOverflowOutput := by
  intro s o
  have hfetch : State.fetch { s with ovf := o } = s.fetch := rfl
  simp only [step, hfetch]
  split
  · cases s.fetch with
    | run i => exact exec_with_ovf i s o
    | idle | endOfStream | reject _ => rfl
  · rfl

/-! ## The sound states -/

theorem State.Inv.reg_fits {s : State} (hs : s.Inv) (r : Reg) : FitsWord s.cfg.wordBits (s.reg r) :=
  (RegFile.fits_iff _ _).1 hs.regsFit r

/-- An instruction that a sound state decodes exists on its machine. -/
theorem State.Inv.wellFormed {s : State} (hs : s.Inv) {i : Instr} {rest : List Nat}
    (hd : decode s.cfg.memAddrMode (s.stream.drop s.pc) = .ok (i, rest)) : i.wellFormed s.cfg = true :=
  wellFormed_of_decode hd fun v hv => hs.streamFits v (List.mem_of_mem_drop hv)

/-- A literal address is a Word, and so is a register (spec/20_memory.md R42). -/
theorem State.Inv.effectiveAddress_fits {s : State} (hs : s.Inv) (r : Reg) {addr : MemAddr}
    (haddr : addr.wellFormed s.cfg = true) : FitsWord s.cfg.wordBits (s.effectiveAddress r addr) := by
  cases addr with
  | viaRegister => exact hs.reg_fits r
  | literal a =>
    simp only [MemAddr.wellFormed, Bool.and_eq_true, decide_eq_true_eq] at haddr
    exact haddr.2

/-- What an instruction writes is a Word: a literal, a register's, a cell's or the ALU's (spec/00_scope.md R10). -/
theorem State.Inv.resultWord_fits {s : State} (hs : s.Inv) {i : Instr} (hi : i.wellFormed s.cfg = true) :
    FitsWord s.cfg.wordBits (resultWord s i) := by
  cases i with
  | loadConst rt lit => exact of_decide_eq_true hi
  | loadMem rt addr => exact hs.memFits.read _
  | storeMem rf _ | move _ rf => exact hs.reg_fits rf
  | not _ | nand _ _ | and _ _ | nor _ _ | or _ _ | xnor _ _ | xor _ _ | add _ _ | addOvf _ _ | sub _ _ | subOvf _ _ =>
    exact BitVec.isLt _

/-- A run state and an output that agree with the rest keep a state sound. -/
theorem State.Inv.withRun {s : State} (hs : s.Inv) {run : RunState} (hrun : run.agrees s.pc s.stream.length = true) :
    State.Inv { s with run := run, ovf := none } where
  legal := hs.legal
  pcBound := hs.pcBound
  regsFit := hs.regsFit
  streamFits := hs.streamFits
  memFits := hs.memFits
  runAgrees := hrun
  terminalOvf _ := rfl

/-- A fault that stands on a Word of the stream keeps a state sound (spec/60_exceptions.md R164). -/
theorem State.Inv.raise {s : State} (hs : s.Inv) (kind : FaultKind)
    (hd : decode s.cfg.memAddrMode (s.stream.drop s.pc) ≠ .error .endOfStream) : (s.raise kind).Inv := by
  rw [ne_eq, decode_eq_endOfStream_iff, List.drop_eq_nil_iff, Nat.not_le] at hd
  exact hs.withRun (by simpa [RunState.agrees] using hd)

/-- A write of Words and a move of `pc` within the stream keep a running state sound. -/
theorem State.Inv.retire {s : State} (hs : s.Inv) (hrun : s.run = .running) {regs : RegFile}
    (hregs : regs.Fits s.cfg.wordBits) {mem : Memory} (hmem : mem.Fits s.cfg) {n : Nat}
    (hpc : s.pc + n ≤ s.stream.length) (o : Option Bool) :
    (State.retire { s with regs := regs, mem := mem } n o).Inv where
  legal := hs.legal
  pcBound := hpc
  regsFit := hregs
  streamFits := hs.streamFits
  memFits := hmem
  runAgrees := by simp [hrun, RunState.agrees]
  terminalOvf hstopped := absurd hrun hstopped

/-- What decodes at `pc` lies in the stream (spec/40_control_unit.md R86). -/
theorem pc_add_length_le {s : State} (hpc : s.pc ≤ s.stream.length) {i : Instr} {rest : List Nat}
    (hd : decode s.cfg.memAddrMode (s.stream.drop s.pc) = .ok (i, rest)) : s.pc + i.length ≤ s.stream.length := by
  have hlen := length_eq_of_decode hd
  rw [List.length_drop] at hlen
  omega

/-- Settles O41: each next state writes Words, moves `pc` past Words of the stream, or ends the run where its run state
says. -/
theorem soundStatesStaySound : Obligations.SoundStatesStaySound := by
  intro s t hs h
  rcases step_next_cases h with
    ⟨-, rfl⟩ | ⟨hrun, ⟨hd, rfl⟩ | ⟨hd, rfl⟩ | ⟨hd, rfl⟩ | ⟨i, rest, hd, hexec⟩⟩
  · exact hs.withRun hs.runAgrees
  · have hend : s.stream.length ≤ s.pc := List.drop_eq_nil_iff.1 ((decode_eq_endOfStream_iff _ _).1 hd)
    exact hs.withRun (decide_eq_true (Nat.le_antisymm hs.pcBound hend))
  · exact hs.raise _ (by simp [hd])
  · exact hs.raise _ (by simp [hd])
  · have hwf := hs.wellFormed hd
    have hpc := pc_add_length_le hs.pcBound hd
    rcases exec_next_cases hexec with ⟨rt, -, rfl⟩ | ⟨rf, addr, -, hin, rfl⟩ | rfl
    · exact hs.retire hrun (hs.regsFit.write rt (hs.resultWord_fits hwf)) hs.memFits hpc _
    · exact hs.retire hrun hs.regsFit (hs.memFits.write hin (hs.reg_fits rf)) hpc _
    · exact hs.raise _ (by simp [hd])

/-- Settles O40: a changed cell is a StoreMem's, whose address is a Word. -/
theorem unreachableCellsKeepTheirWord : Obligations.UnreachableCellsKeepTheirWord := by
  intro s t a hs h hge
  by_contra hne
  obtain ⟨-, rf, addr, rest, hd, rfl, -, -⟩ := memoryChangesOnlyByStoreMem s t a h hne
  exact absurd (hs.effectiveAddress_fits rf (hs.wellFormed hd)) (Nat.not_lt.2 hge)

/-! ## Runs of many steps -/

theorem legalInstance_of_step {s t : State} (hl : s.LegalInstance) (h : step s = .next t) : t.LegalInstance := by
  obtain ⟨hstream, hcfg⟩ := streamAndParametersNeverChange s t h
  rw [State.LegalInstance, hstream, hcfg]
  exact hl

/-- A terminal state without an overflow output ends a run of any length where it starts. -/
theorem core_run_of_terminal {s : State} (hl : s.LegalInstance) (hrun : s.run ≠ .running) (hovf : s.ovf = none)
    (k : Nat) : core.run k s = .next s := by
  induction k with
  | zero => exact core_run_zero s
  | succ k ih => rw [core_run_succ k ((terminalStepChangesNothing s hl hrun).2 hovf), ih]

/-- Settles O33, by induction on the number of steps. -/
theorem terminalStatesLastUntilReset : Obligations.TerminalStatesLastUntilReset :=
  fun k _ hl hrun hovf => ⟨core_run_of_terminal hl hrun hovf k, rfl, rfl⟩

/-- A run that starts in a terminal state ends in one, whatever the overflow output it starts with. -/
theorem core_run_ends_of_terminal {s : State} (hl : s.LegalInstance) (hrun : s.run ≠ .running) (k : Nat) :
    ∃ t : State, core.run k s = .next t ∧ t.Terminal := by
  cases k with
  | zero => exact ⟨s, core_run_zero s, hrun⟩
  | succ k =>
    refine ⟨s.idle, ?_, hrun⟩
    rw [core_run_succ k (step_of_not_running hl hrun)]
    exact core_run_of_terminal (s := s.idle) hl hrun rfl k

/-- A run of more steps than there are Words from `pc` on ends: every step that does not end it takes a Word. -/
theorem core_run_ends {s : State} (hl : s.LegalInstance) {k : Nat} (hk : s.stream.length - s.pc < k) :
    ∃ t : State, core.run k s = .next t ∧ t.Terminal := by
  induction k generalizing s with
  | zero => omega
  | succ k ih =>
    obtain ⟨t, hstep⟩ := stepIsTotal s hl
    have hl' := legalInstance_of_step hl hstep
    rw [core_run_succ k hstep]
    rcases pcMovesOnlyPastTheInstruction s t hstep with ⟨-, hstopped⟩ | ⟨i, rest, -, hd, hpc, -⟩
    · exact core_run_ends_of_terminal hl' hstopped k
    · have hlen := length_eq_of_decode hd
      have hpos := i.length_pos
      rw [List.length_drop] at hlen
      refine ih hl' ?_
      rw [(streamAndParametersNeverChange s t hstep).1, hpc]
      omega

/-- Settles O43: a run has at most `len(stream)` Words to take. -/
theorem everyRunEndsWithinStreamLength : Obligations.EveryRunEndsWithinStreamLength :=
  fun _ hl => core_run_ends hl (by omega)

end Sys2Proof.Machine
end

section
/-!
The statements about reset and the host's transactions (spec/70_reset_and_hazards.md, 40_control_unit.md R95).
-/

namespace Sys2Proof.Machine

/-- A reset keeps a state sound: what it sets is sound anywhere (spec/70_reset_and_hazards.md R180). -/
theorem State.resetCore_inv {s : State} (hl : s.LegalInstance) (hstream : ∀ v ∈ s.stream, FitsWord s.cfg.wordBits v)
    (hmem : s.mem.Fits s.cfg) : s.resetCore.Inv where
  legal := hl
  pcBound := Nat.zero_le _
  regsFit := ⟨Nat.two_pow_pos _, Nat.two_pow_pos _, Nat.two_pow_pos _, Nat.two_pow_pos _⟩
  streamFits := hstream
  memFits := hmem
  runAgrees := rfl
  terminalOvf _ := rfl

theorem RegFile.read_zero (r : Reg) : RegFile.read { r0 := 0, r1 := 0, r2 := 0, r3 := 0 } r = 0 := by
  cases r <;> rfl

/-- Settles O44: the reset transaction writes the registers, `pc`, the run state and the output, and no other field. -/
theorem resetSetsCoreAndKeepsMemory : Obligations.ResetSetsCoreAndKeepsMemory :=
  fun _ => ⟨RegFile.read_zero, rfl, rfl, rfl, fun _ => rfl, rfl, rfl,
    fun hs => State.resetCore_inv hs.legal hs.streamFits hs.memFits⟩

/-- Settles O42: the state after reset is a reset of itself, with nothing loaded. -/
theorem resetStateIsSound : Obligations.ResetStateIsSound :=
  State.resetCore_inv (s := State.reset) (by decide) (by decide) (by decide)

/-- Settles O45: the values are the definition's, and an empty stream halts. -/
theorem resetStateHoldsItsValues : Obligations.ResetStateHoldsItsValues :=
  ⟨RegFile.read_zero, rfl, rfl, fun _ => rfl, step_eq_halt_of_length_le_pc (by decide) rfl le_rfl⟩

/-- What the memory of an image lists: cells of the image, each with a Word of it (spec/00_scope.md R8). -/
theorem Memory.mem_ofImage {base : Nat} {image : List Nat} {x : Nat × Nat} (h : x ∈ Memory.ofImage base image) :
    x.1 < base + image.length ∧ x.2 ∈ image := by
  induction image generalizing base with
  | nil => cases h
  | cons v rest ih =>
    rw [List.length_cons]
    rcases Memory.mem_put h with rfl | h
    · exact ⟨by simp, List.mem_cons_self⟩
    · obtain ⟨hlt, hmem⟩ := ih h
      exact ⟨by omega, List.mem_cons_of_mem _ hmem⟩

/-- Settles O46: a launch is a reset of a loaded machine, and its image lists cells of that machine with its Words. -/
theorem launchedRunStartsSound : Obligations.LaunchedRunStartsSound := by
  rintro c stream image hc ⟨hlen, hcells, hstream, himage⟩
  have hmem : (Memory.ofImage 0 image).Fits c := by
    refine ⟨Memory.ofImage_wf 0 image, fun x hx => ?_⟩
    obtain ⟨hlt, hword⟩ := Memory.mem_ofImage hx
    exact ⟨by omega, himage _ hword⟩
  exact ⟨State.resetCore_inv (s := (State.configure c).load stream image) ⟨hc, hlen⟩ hstream hmem, rfl⟩

/-- The memory of an image reads as the image (spec/00_scope.md R8). -/
theorem Memory.read_ofImage {base k v : Nat} {image : List Nat} (h : image[k]? = some v) :
    (Memory.ofImage base image).read (base + k) = v := by
  induction image generalizing base k with
  | nil => simp at h
  | cons x rest ih =>
    cases k with
    | zero =>
      have hlt : ∀ c ∈ Memory.ofImage (base + 1) rest, base < c.1 := fun c hc => Memory.le_of_mem_ofImage hc
      exact (Memory.read_put_same hlt).trans (Option.some.inj h)
    | succ k =>
      rw [Memory.ofImage, Memory.read_put_ne (by omega), Nat.add_comm k 1, ← Nat.add_assoc]
      exact ih h

/-- Settles O47: the core reads the image's memory, and the Inspector what the core reads, a listed cell being in
range. -/
theorem launchedMemoryHoldsTheImage : Obligations.LaunchedMemoryHoldsTheImage := by
  intro c stream image a v hlen hv
  have hread : (State.launch c stream image).memRead a = v := by
    have hcell := Memory.read_ofImage (base := 0) hv
    rwa [Nat.zero_add] at hcell
  have hin : a < c.memWords := hlen ▸ (List.getElem?_eq_some_iff.1 hv).1
  exact ⟨hread, (if_pos hin).trans (congrArg _ hread)⟩

end Sys2Proof.Machine
end
